-- ==== Sys2Proof/Config.lean ====
section
/-! DEFINITION. What is fixed when the hardware is built (spec/00_scope.md section 3), and the one parameter
the spec leaves OPEN. -/

namespace Sys2Proof.Config

/-- W, the number of bits in one word (spec/00_scope.md R5). -/
abbrev W : Nat := 256

/-- MAX_WORDS, the most words one command can cover (spec/00_scope.md R6). -/
abbrev maxWords : Nat := 16

/-- The command set's name (spec/00_scope.md R1). -/
def commandSet : String := "FBA-W256-N16"

/-- How far LATENCY exceeds 1. DESIGN CHOICE (log 1), safe: LATENCY is OPEN (spec/70_reset_and_hazards.md R77),
so it has no value here that a proof could lean on. -/
opaque latencyBeyondOne : Nat

/-- LATENCY, the rising edges from acceptance to the first edge at which the response is presented: a natural
number of at least 1 and otherwise OPEN (spec/70_reset_and_hazards.md R77, R84; log 19). -/
def latency : Nat := latencyBeyondOne + 1

end Sys2Proof.Config
end

