-- ==== Sys2Proof/Word.lean ====
section
/-! DEFINITION. The words the FBA's ports carry (spec/10_state.md R13, R14, R23; spec/20_memory.md R27). -/

namespace Sys2Proof

/-- A word: W = 256 bits, bit i of weight 2^i (spec/00_scope.md R5, R9). -/
abbrev Word := BitVec 256

/-- A command word, `CMD[31:0]` (spec/30_encoding.md R36). -/
abbrev Command := BitVec 32

/-- The sixteen words of `WIN`, of `WOUT` and of the host's store (spec/10_state.md R13, R14; log 16). -/
abbrev Words := Vector Word 16

end Sys2Proof
end

