-- ==== Sys2Proof/Machine/Bits.lean ====
section
/-! DEFINITION. The exact arithmetic on naturals of spec/00_scope.md R10, and the narrowing to a word. -/

namespace Sys2Proof.Machine

open Sys2Proof.Config

/-- `mask(w)` = 2^w - 1 (spec/00_scope.md R10). -/
def mask (w : Nat) : Nat := 2 ^ w - 1

/-- `notW(x)` = (2^W - 1) - x, the W-bit complement of a word (spec/00_scope.md R10). -/
def notW (x : Nat) : Nat := (2 ^ W - 1) - x

/-- `x[hi:lo]` = `(x >> lo) & mask(hi - lo + 1)` (spec/00_scope.md R10). -/
def slice (x hi lo : Nat) : Nat := (x >>> lo) &&& mask (hi - lo + 1)

/-- `zext_W(v)`: v as a word. The rules use it where v < 2^W only (spec/00_scope.md R10). -/
def toWord (v : Nat) : Word := BitVec.ofNat 256 v

end Sys2Proof.Machine
end

