-- ==== Sys2Proof/Syntax.lean ====
section
/-! DEFINITION. The four commands (spec/30_encoding.md R39), one constructor per row of the opcode table, and the
classes of command words that are none of them (R46). -/

namespace Sys2Proof

/-- A command, its operands in the order of spec/30_encoding.md R45: the word count `n` (1..16), the bit offset
`o`, the field width `w`. The value to write travels in `VIN`, not in the command (R36). -/
inductive Instr where
  /-- Read a field of one word (spec/40_field_accessor.md R49). -/
  | rdf (o w : Nat)
  /-- Write a field of one word (spec/40_field_accessor.md R50). -/
  | wrf (o w : Nat)
  /-- Read a field over `n` words (spec/41_multiword.md R59). -/
  | mrd (n o w : Nat)
  /-- Write a field over `n` words (spec/41_multiword.md R60). -/
  | mwr (n o w : Nat)
  deriving DecidableEq, Repr

/-- Why a command word names no command (spec/30_encoding.md R46). -/
inductive Illegal where
  /-- `op` in {0, 5, 6, 7}. -/
  | reservedOpcode
  /-- `rsv != 0`. -/
  | reservedBits
  /-- `op` in {1, 2} and `nwm1 != 0`. -/
  | wordCountOnSingle
  /-- `w == 0`. -/
  | zeroWidth
  deriving DecidableEq, Repr

namespace Instr

/-- The field width operand. -/
def width : Instr → Nat
  | rdf _ w => w
  | wrf _ w => w
  | mrd _ _ w => w
  | mwr _ _ w => w

/-- The bit offset operand. -/
def offset : Instr → Nat
  | rdf o _ => o
  | wrf o _ => o
  | mrd _ o _ => o
  | mwr _ o _ => o

/-- N, the number of words the command acts on (spec/30_encoding.md R38). -/
def wordCount : Instr → Nat
  | rdf _ _ => 1
  | wrf _ _ => 1
  | mrd n _ _ => n
  | mwr n _ _ => n

/-- Whether the command produces a field value in `VOUT` (spec/10_state.md R14). -/
def isRead : Instr → Bool
  | rdf _ _ => true
  | wrf _ _ => false
  | mrd _ _ _ => true
  | mwr _ _ _ => false

end Instr

end Sys2Proof
end

