-- ==== Sys2Proof/WellFormed.lean ====
section
/-! DEFINITION. Which commands an encoding exists for (spec/30_encoding.md R44's side conditions). -/

namespace Sys2Proof.Instr

/-- A width the WIDTH field holds and R40 allows: 1..511. -/
def widthOk (w : Nat) : Bool := decide (1 ≤ w) && decide (w ≤ 511)

/-- An offset the OFFSET field holds: 0..4095. -/
def offsetOk (o : Nat) : Bool := decide (o ≤ 4095)

/-- A word count the NWM1 field holds: 1..16 (R38). -/
def wordCountOk (n : Nat) : Bool := decide (1 ≤ n) && decide (n ≤ Config.maxWords)

/-- The command can be encoded (spec/30_encoding.md R44). A width above W is well-formed: it is a legal encoding,
answered with TOO_MANY_BITS (R40). -/
def wellFormed : Instr → Bool
  | rdf o w => offsetOk o && widthOk w
  | wrf o w => offsetOk o && widthOk w
  | mrd n o w => wordCountOk n && offsetOk o && widthOk w
  | mwr n o w => wordCountOk n && offsetOk o && widthOk w

/-- CAP, the number of bits the command can address (spec/00_scope.md R7, spec/30_encoding.md R38). -/
def capacity (i : Instr) : Nat := i.wordCount * Config.W

end Sys2Proof.Instr
end

