-- ==== Sys2Proof/Decode.lean ====
section
/-! DEFINITION. The decoder of spec/30_encoding.md R36 to R40, total on command words, and the encoder of R44.
A command word comes from the request port, bit-parallel (spec/20_memory.md R27, R35): there are no bytes to order. -/

namespace Sys2Proof

open Sys2Proof.Machine

/-- `op := CMD[2:0]` (spec/30_encoding.md R37). -/
def fieldOp (c : Command) : Nat := slice c.toNat 2 0

/-- `w := CMD[11:3]` (spec/30_encoding.md R37). -/
def fieldWidth (c : Command) : Nat := slice c.toNat 11 3

/-- `o := CMD[23:12]` (spec/30_encoding.md R37). -/
def fieldOffset (c : Command) : Nat := slice c.toNat 23 12

/-- `nwm1 := CMD[27:24]` (spec/30_encoding.md R37). -/
def fieldNwm1 (c : Command) : Nat := slice c.toNat 27 24

/-- `rsv := CMD[31:28]` (spec/30_encoding.md R37). -/
def fieldRsv (c : Command) : Nat := slice c.toNat 31 28

/-- `legal(CMD)` as spec/30_encoding.md R40 writes it. -/
def legal (c : Command) : Bool :=
  decide (fieldRsv c = 0)
    && decide (fieldOp c ∈ [1, 2, 3, 4])
    && decide (fieldWidth c ≠ 0)
    && (decide (fieldOp c ∈ [3, 4]) || decide (fieldNwm1 c = 0))

/-- The decoder: one of the four commands, or the class of illegal word it is (spec/30_encoding.md R40, R46, R47).
DESIGN CHOICE (log 12), safe: a word in several classes is named by the first of reserved bits, reserved opcode,
zero width, word count; the FBA answers ILLEGAL_COMMAND whichever it is. -/
def decode (c : Command) : Except Illegal Instr :=
  if fieldRsv c ≠ 0 then .error .reservedBits
  else if fieldOp c = 0 ∨ 4 < fieldOp c then .error .reservedOpcode
  else if fieldWidth c = 0 then .error .zeroWidth
  else if fieldOp c = 3 then .ok (.mrd (fieldNwm1 c + 1) (fieldOffset c) (fieldWidth c))
  else if fieldOp c = 4 then .ok (.mwr (fieldNwm1 c + 1) (fieldOffset c) (fieldWidth c))
  else if fieldNwm1 c ≠ 0 then .error .wordCountOnSingle
  else if fieldOp c = 1 then .ok (.rdf (fieldOffset c) (fieldWidth c))
  else .ok (.wrf (fieldOffset c) (fieldWidth c))

/-- `encode(op, w, o, nwm1)` of spec/30_encoding.md R44. -/
def encodeFields (op w o nwm1 : Nat) : Command :=
  BitVec.ofNat 32 ((nwm1 <<< 24) ||| (o <<< 12) ||| (w <<< 3) ||| op)

/-- The command word of a well-formed command (spec/30_encoding.md R39, R44). -/
def encode : Instr → Command
  | .rdf o w => encodeFields 1 w o 0
  | .wrf o w => encodeFields 2 w o 0
  | .mrd n o w => encodeFields 3 w o (n - 1)
  | .mwr n o w => encodeFields 4 w o (n - 1)

/-- The command word whose bits are `w`, bit 0 the least significant, every bit from `nbits` up zero. -/
def tableCommand (nbits w : Nat) : Command := BitVec.ofNat 32 (w % 2 ^ nbits)

/-- What the decoder reads from an instruction numbered as spec/opcode_table.json numbers it. There is one length,
32 bits (spec/30_encoding.md R41), so bits beyond it are no command. -/
def decodeTableWord (nbits w : Nat) : Option Instr :=
  if w % 2 ^ nbits < 2 ^ 32 then (decode (tableCommand nbits w)).toOption else none

end Sys2Proof
end

