-- ==== Sys2Proof/Machine/State.lean ====
section
/-! DEFINITION. The state: the FBA's in-flight slot, the levels on its input ports, and the host (spec/10_state.md
section 5). The FBA has no other state: no registers, no program counter, no flags, no memory, no mode
(spec/10_state.md R12, R17 to R22; spec/60_exceptions.md R71 to R74). -/

namespace Sys2Proof.Machine

/-- The STATUS codes (spec/30_encoding.md R42). `emptyLayout`, `lengthMismatch`, `reserved5` and `reserved6` are
codes the FBA never produces. -/
inductive Status where
  | ok
  | emptyLayout
  | lengthMismatch
  | tooManyBits
  | valueTooLarge
  | reserved5
  | reserved6
  | illegalCommand
  deriving DecidableEq, Repr

/-- The three errors the FBA raises (spec/60_exceptions.md R65). -/
inductive Err where
  | illegalCommand
  | tooManyBits
  | valueTooLarge
  deriving DecidableEq, Repr

/-- The operands of a transaction: `CMD`, `VIN`, `WIN[0..15]` (spec/10_state.md R13). -/
structure Request where
  cmd : Command
  vin : Word
  win : Words
  deriving DecidableEq, Repr

/-- The results of a transaction: `STATUS`, `VOUT`, `WOUT[0..15]` (spec/10_state.md R14). -/
structure Response where
  status : Status
  vout : Word
  wout : Words
  deriving DecidableEq, Repr

/-- One command with its operands, and the one response to it (spec/00_scope.md section 5). -/
structure Transaction where
  req : Request
  rsp : Response
  deriving DecidableEq, Repr

/-- What a full in-flight slot holds: the response of one accepted transaction (spec/10_state.md R22), and the
rising edges from its acceptance to the coming edge, counted until it is presented (spec/70_reset_and_hazards.md
R77). DESIGN CHOICE (log 8), safe: the count, and computing the response at the accepting edge. -/
structure InFlight where
  rsp : Response
  waited : Nat
  deriving DecidableEq, Repr

/-- The input ports: the levels the host drives, sampled at the coming rising edge of `clk` (spec/10_state.md R23;
log 14). -/
structure Ports where
  /-- `rst_n`, active low. -/
  rstN : Bool
  /-- `req_valid`. -/
  reqValid : Bool
  /-- `req_cmd`. -/
  reqCmd : Command
  /-- `req_vin`. -/
  reqVin : Word
  /-- `req_win_0` to `req_win_15`. -/
  reqWin : Words
  /-- `rsp_ready`. -/
  rspReady : Bool
  deriving DecidableEq, Repr

/-- What the host reads from the response ports at an edge (spec/70_reset_and_hazards.md R79, R83). -/
inductive HostRead where
  /-- It reads none of them. -/
  | nothing
  /-- It reads `rsp_status`, `rsp_vout` and `rsp_wout_k` as they stand. -/
  | outputs
  /-- It reads `VOUT` as a field value (R83). -/
  | fieldValue
  deriving DecidableEq, Repr

/-- Where the words of a request come from: the host's store as it stands, or words of the host's own choice, a
stale copy among them (spec/70_reset_and_hazards.md R82; spec/93_implementation_defined.md U7). -/
inductive WinSource where
  | store
  | copy (ws : Words)
  deriving DecidableEq, Repr

/-- How long the host keeps the levels it drives. DESIGN CHOICE (log 2), safe: one edge at a time gives every
sequence of levels; the other two let a host wait for the handshake (spec/70_reset_and_hazards.md R76, R77). -/
inductive Hold where
  | oneEdge
  | untilAccepted
  | untilHandedOver
  deriving DecidableEq, Repr

/-- One act of the host: the levels it drives, what it reads meanwhile, and whether it writes `WOUT` back to its
store at a handover (spec/10_state.md R16). -/
structure HostAct where
  rstN : Bool
  reqValid : Bool
  cmd : Command
  vin : Word
  win : WinSource
  rspReady : Bool
  reads : HostRead
  writesBack : Bool
  hold : Hold
  deriving DecidableEq, Repr

/-- The host (spec/00_scope.md section 5): its word store (spec/10_state.md R16), the request it has in flight, the
transactions whose response it took, how it acts now and how it will act. DESIGN CHOICE (log 2, 5, 20). -/
structure HostAgent where
  store : Words
  issued : Option Request
  taken : List Transaction
  reads : HostRead
  writesBack : Bool
  hold : Hold
  script : List HostAct
  deriving DecidableEq, Repr

/-- The machine between two rising edges of `clk`: one FBA and its one host (log 15). The output ports are functions of it (Machine/Ops.lean). -/
structure State where
  slot : Option InFlight
  ports : Ports
  host : HostAgent
  deriving DecidableEq, Repr

/-- What stops the machine. Both are about a host that reads an output the spec gives no meaning; no command ends
in one of them. -/
inductive Fault where
  /-- Raised by an edge at which the host reads `rsp_status`, `rsp_vout` or `rsp_wout_k` while `rsp_valid = 0`:
  "a read of them by the host faults in the model" (spec/70_reset_and_hazards.md R79). Safe. -/
  | outputHasNoValue
  /-- Raised by an edge at which the host reads `VOUT` as a field value though `STATUS` is not OK or the command was
  no read: such a host "has no defined outcome" (spec/70_reset_and_hazards.md R83). Safe. -/
  | voutIsNoFieldValue
  deriving DecidableEq, Repr

/-- What the model declines to run. -/
inductive Refusal where
  /-- Raised by an arm of exec whose command has no meaning yet. Safe. No arm raises it: all four are modelled. -/
  | notModelled (mnemonic : String)
  deriving DecidableEq, Repr

/-- Sixteen zero words. -/
def zeroWords : Words := Vector.replicate 16 0#256

/-- The ports of a host that presents nothing. DESIGN CHOICE (log 3), unsafe: the spec gives an input port no value
at reset. `rst_n` is 1: reset has been released (spec/70_reset_and_hazards.md R80). -/
def Ports.reset : Ports :=
  { rstN := true, reqValid := false, reqCmd := 0#32, reqVin := 0#256, reqWin := zeroWords, rspReady := false }

/-- The host right after reset. DESIGN CHOICE (log 3, 4, 20), unsafe: its store is "not the FBA's"
(spec/10_state.md section 5), so the spec gives it no value. -/
def HostAgent.reset : HostAgent :=
  { store := zeroWords, issued := none, taken := [], reads := .nothing, writesBack := false, hold := .oneEdge,
    script := [] }

/-- The machine right after reset: the slot is empty (spec/70_reset_and_hazards.md R75; log 3, 4, 20, 21). -/
def State.reset : State := { slot := none, ports := Ports.reset, host := HostAgent.reset }

end Sys2Proof.Machine
end

