-- ==== Sys2Proof/Machine/Flags.lean ====
section
/-! DEFINITION. STATUS, the FBA's only condition indicator (spec/10_state.md R19): its codes, and the errors'. -/

namespace Sys2Proof.Machine

/-- The code on `rsp_status` (spec/30_encoding.md R42). -/
def Status.code : Status → BitVec 3
  | .ok => 0#3
  | .emptyLayout => 1#3
  | .lengthMismatch => 2#3
  | .tooManyBits => 3#3
  | .valueTooLarge => 4#3
  | .reserved5 => 5#3
  | .reserved6 => 6#3
  | .illegalCommand => 7#3

/-- `code(E)` as a STATUS (spec/60_exceptions.md R64, R65). -/
def Err.status : Err → Status
  | .illegalCommand => .illegalCommand
  | .tooManyBits => .tooManyBits
  | .valueTooLarge => .valueTooLarge

/-- The codes the FBA produces: 0, 3, 4 and 7 (spec/30_encoding.md R42). -/
def Status.produced : Status → Bool
  | .ok => true
  | .tooManyBits => true
  | .valueTooLarge => true
  | .illegalCommand => true
  | .emptyLayout => false
  | .lengthMismatch => false
  | .reserved5 => false
  | .reserved6 => false

end Sys2Proof.Machine
end

