-- ==== Sys2Proof/Machine/Operands.lean ====
section
/-! DEFINITION. The operands of a command: words, value, and where a field lies (spec/10_state.md R13;
spec/41_multiword.md R56 to R58). -/

namespace Sys2Proof.Machine

open Sys2Proof.Config

/-- Word `k` of sixteen. Every rule keeps k below 16 (spec/41_multiword.md R61); beyond, no word is there and the
answer is 0 (log 13). -/
def getWord (ws : Words) (k : Nat) : Word := ws[k]?.getD 0#256

/-- The sixteen words with word `k` replaced; all as before where no word `k` is there (log 13). -/
def putWord (ws : Words) (k : Nat) (x : Word) : Words := ws.setIfInBounds k x

/-- `WIN[k]` as a natural number (spec/00_scope.md R8, R11). -/
def Request.word (q : Request) (k : Nat) : Nat := (getWord q.win k).toNat

/-- `VIN` as a natural number, presented whole (spec/30_encoding.md R43). -/
def Request.value (q : Request) : Nat := q.vin.toNat

/-- The request on the ports (spec/10_state.md R13). -/
def Ports.request (p : Ports) : Request := { cmd := p.reqCmd, vin := p.reqVin, win := p.reqWin }

/-- The operands sampled at the accepting edge (spec/70_reset_and_hazards.md R76). -/
def State.request (s : State) : Request := s.ports.request

/-- `k := o / W` (spec/41_multiword.md R56). -/
def wordIndex (o : Nat) : Nat := o / W

/-- `l := o mod W` (spec/41_multiword.md R56). -/
def localOffset (o : Nat) : Nat := o % W

/-- `lowW := W - l`, the bits of a straddling field in word k (spec/41_multiword.md R57). -/
def lowWidth (o : Nat) : Nat := W - localOffset o

/-- `hiW := w - lowW`, its bits in word k+1 (spec/41_multiword.md R57). -/
def highWidth (o w : Nat) : Nat := w - lowWidth o

/-- The field at absolute offset `o` crosses a word boundary (spec/41_multiword.md R57). -/
def straddles (o w : Nat) : Bool := decide (W < localOffset o + w)

/-- A single-word field does not fit (spec/40_field_accessor.md R48). -/
def tooManySingle (o w : Nat) : Bool := decide (W < o + w)

/-- A multi-word field does not fit (spec/41_multiword.md R58). -/
def tooManyMulti (n o w : Nat) : Bool := decide (W < w) || decide (n * W < o + w)

/-- The value does not fit its field: `VIN >= 2^w` (spec/60_exceptions.md R68). -/
def tooLarge (v w : Nat) : Bool := decide (2 ^ w ≤ v)

end Sys2Proof.Machine
end

