-- ==== Sys2Proof/Machine/Ops.lean ====
section
/-! DEFINITION. The shared operations: a field of a word, the responses of spec/00_scope.md R11 (`respond`, `raise`),
and the output ports (spec/10_state.md R23). -/

namespace Sys2Proof.Machine

open Sys2Proof.Config

/-- The field at `(o, w)` of word x, right-justified: `(x >> o) & mask(w)` (spec/40_field_accessor.md R49). -/
def readField (x o w : Nat) : Nat := (x >>> o) &&& mask w

/-- Word x with the field at `(o, w)` replaced by v: `(x & notW(mask(w) << o)) | (v << o)`
(spec/40_field_accessor.md R50). -/
def writeField (x o w v : Nat) : Nat := (x &&& notW (mask w <<< o)) ||| (v <<< o)

/-- `respond` after `VOUT <- v`: no word is written (spec/00_scope.md R11; spec/10_state.md R15). -/
def Request.respondValue (q : Request) (v : Nat) : Response := { status := .ok, vout := toWord v, wout := q.win }

/-- `respond` after the words `ws` are set and `VOUT <- 0` (spec/00_scope.md R11; spec/10_state.md R14). -/
def respondWords (ws : Words) : Response :=
  { status := .ok, vout := 0#256, wout := ws }

/-- `raise E`, the error response: STATUS is E's code, VOUT is 0, WOUT is WIN (spec/60_exceptions.md R64). This is
all that an error does: nothing is saved and control goes nowhere, so there is no return from one (R72). -/
def Request.raise (q : Request) (e : Err) : Response := { status := e.status, vout := 0#256, wout := q.win }

/-- The response enters the in-flight slot at the accepting edge (spec/10_state.md R22); the coming edge is the first
one after it. -/
def State.answer (s : State) (r : Response) : State := { s with slot := some { rsp := r, waited := 1 } }

/-- `raise E` for the request on the ports: the one operation by which a command ends in an error
(spec/60_exceptions.md R64). -/
def State.raise (s : State) (e : Err) : State := s.answer (s.request.raise e)

/-- The slot is empty again: after a handover (spec/70_reset_and_hazards.md R77) or at a reset edge (R75). -/
def State.emptySlot (s : State) : State := { s with slot := none }

/-- One more edge has passed for a response not yet presented (spec/70_reset_and_hazards.md R77). -/
def State.wait (s : State) : State :=
  { s with slot := s.slot.map fun f => { f with waited := f.waited + 1 } }

/-- `req_ready`: 1 exactly when `rst_n = 1` and the slot is empty (spec/70_reset_and_hazards.md R78). -/
def State.reqReady (s : State) : Bool := s.ports.rstN && s.slot.isNone

/-- The response presented at the coming edge, if any: there is none while `rst_n = 0`
(spec/70_reset_and_hazards.md R75; log 9), and an accepted one is presented from LATENCY edges after its acceptance
(R77). -/
def State.presents (latency : Nat) (s : State) : Option Response :=
  if s.ports.rstN then
    match s.slot with
    | none => none
    | some f => if latency ≤ f.waited then some f.rsp else none
  else none

/-- `rsp_valid` (spec/70_reset_and_hazards.md R75, R77). -/
def State.rspValid (latency : Nat) (s : State) : Bool := (s.presents latency).isSome

/-- `rsp_status`, which has a value only while `rsp_valid = 1` (spec/70_reset_and_hazards.md R79). -/
def State.rspStatus (latency : Nat) (s : State) : Option (BitVec 3) := (s.presents latency).map (·.status.code)

/-- `rsp_vout`, which has a value only while `rsp_valid = 1` (spec/70_reset_and_hazards.md R79). -/
def State.rspVout (latency : Nat) (s : State) : Option Word := (s.presents latency).map (·.vout)

/-- `rsp_wout_k`, which has a value only while `rsp_valid = 1` (spec/70_reset_and_hazards.md R79). -/
def State.rspWout (latency : Nat) (s : State) (k : Nat) : Option Word :=
  (s.presents latency).map fun r => getWord r.wout k

end Sys2Proof.Machine
end

