-- ==== Sys2Proof/Machine/FieldAccessor.lean ====
section
/-! DEFINITION. The field accessor commands, RDF and WRF (spec/40_field_accessor.md). -/

namespace Sys2Proof.Machine

/-- The response to RDF (spec/40_field_accessor.md R49). -/
def rdf (o w : Nat) (q : Request) : Response :=
  if tooManySingle o w then q.raise .tooManyBits
  else q.respondValue (readField (q.word 0) o w)

/-- The response to WRF (spec/40_field_accessor.md R50; the order of the checks is spec/60_exceptions.md R69's). -/
def wrf (o w : Nat) (q : Request) : Response :=
  if tooManySingle o w then q.raise .tooManyBits
  else if tooLarge q.value w then q.raise .valueTooLarge
  else respondWords (putWord q.win 0 (toWord (writeField (q.word 0) o w q.value)))

/-- RDF. -/
def execRdf (o w : Nat) (s : State) : Host.Outcome State Fault Refusal := .next (s.answer (rdf o w s.request))

/-- WRF. -/
def execWrf (o w : Nat) (s : State) : Host.Outcome State Fault Refusal := .next (s.answer (wrf o w s.request))

end Sys2Proof.Machine
end

