-- ==== Sys2Proof/Machine/MultiWord.lean ====
section
/-! DEFINITION. The multi-word field commands, MRD and MWR (spec/41_multiword.md). -/

namespace Sys2Proof.Machine

/-- A straddling field read as its two parts, the word-k bits low (spec/41_multiword.md R57, R59). -/
def readStraddling (q : Request) (o w : Nat) : Nat :=
  readField (q.word (wordIndex o)) (localOffset o) (lowWidth o)
    ||| (readField (q.word (wordIndex o + 1)) 0 (highWidth o w) <<< lowWidth o)

/-- A straddling field written as its two parts: the low bits of the value into word k, the rest into word k+1
(spec/41_multiword.md R57, R60). -/
def writeStraddling (q : Request) (o w : Nat) : Words :=
  putWord
    (putWord q.win (wordIndex o)
      (toWord (writeField (q.word (wordIndex o)) (localOffset o) (lowWidth o) (q.value &&& mask (lowWidth o)))))
    (wordIndex o + 1)
    (toWord (writeField (q.word (wordIndex o + 1)) 0 (highWidth o w) (q.value >>> lowWidth o)))

/-- The response to MRD (spec/41_multiword.md R59). -/
def mrd (n o w : Nat) (q : Request) : Response :=
  if tooManyMulti n o w then q.raise .tooManyBits
  else if straddles o w then q.respondValue (readStraddling q o w)
  else q.respondValue (readField (q.word (wordIndex o)) (localOffset o) w)

/-- The response to MWR (spec/41_multiword.md R60; the order of the checks is spec/60_exceptions.md R69's). -/
def mwr (n o w : Nat) (q : Request) : Response :=
  if tooManyMulti n o w then q.raise .tooManyBits
  else if tooLarge q.value w then q.raise .valueTooLarge
  else if straddles o w then respondWords (writeStraddling q o w)
  else respondWords
    (putWord q.win (wordIndex o) (toWord (writeField (q.word (wordIndex o)) (localOffset o) w q.value)))

/-- MRD. -/
def execMrd (n o w : Nat) (s : State) : Host.Outcome State Fault Refusal := .next (s.answer (mrd n o w s.request))

/-- MWR. -/
def execMwr (n o w : Nat) (s : State) : Host.Outcome State Fault Refusal := .next (s.answer (mwr n o w s.request))

end Sys2Proof.Machine
end

