-- ==== Sys2Proof/Machine/Dispatch.lean ====
section
/-! DEFINITION. One arm per command. -/

namespace Sys2Proof.Machine

def exec (i : Instr) (s : State) : Host.Outcome State Fault Refusal :=
  match i with
  | .rdf o w => Sys2Proof.Machine.execRdf o w s
  | .wrf o w => Sys2Proof.Machine.execWrf o w s
  | .mrd n o w => Sys2Proof.Machine.execMrd n o w s
  | .mwr n o w => Sys2Proof.Machine.execMwr n o w s

end Sys2Proof.Machine
end

