-- ==== Sys2Proof/Machine/Edge.lean ====
section
/-! DEFINITION. One rising edge of `clk`: what happens at it (spec/70_reset_and_hazards.md R75 to R78), what it does
to the FBA, and what the host does at it (R79, R82, R83). -/

namespace Sys2Proof.Machine

/-- What happens at a rising edge. -/
inductive EdgeEvent where
  /-- `rst_n = 0` (spec/70_reset_and_hazards.md R75). -/
  | reset
  /-- A transaction is accepted, with the operands sampled at this edge (R76). -/
  | accepted (q : Request)
  /-- The presented response is handed over (R77). -/
  | handedOver (r : Response)
  /-- A transaction is in flight and its response not yet presented (R77). -/
  | waiting
  /-- The response is presented and `rsp_ready = 0`: it stays presented (R77). -/
  | presented
  /-- The slot is empty and no command is presented; `rsp_ready` has no effect (spec/93_implementation_defined.md U9). -/
  | idle
  deriving DecidableEq, Repr

/-- The event of the coming edge (spec/70_reset_and_hazards.md R75 to R78). -/
def State.event (latency : Nat) (s : State) : EdgeEvent :=
  if s.ports.rstN then
    match s.slot with
    | none => if s.ports.reqValid then .accepted s.request else .idle
    | some f =>
      if latency ≤ f.waited then
        if s.ports.rspReady then .handedOver f.rsp else .presented
      else .waiting
  else .reset

/-- A transaction at its accepting edge: the command is decoded from `req_cmd` and run, or is illegal
(spec/30_encoding.md R40; spec/20_memory.md R35; spec/70_reset_and_hazards.md R76). -/
def accept (s : State) : Host.Outcome State Fault Refusal :=
  match decode s.ports.reqCmd with
  | .ok i => exec i s
  | .error _ => .next (s.raise .illegalCommand)

/-- What an event does to the FBA (spec/70_reset_and_hazards.md R75 to R78). -/
def fbaEdge (e : EdgeEvent) (s : State) : Host.Outcome State Fault Refusal :=
  match e with
  | .reset => .next s.emptySlot
  | .accepted _ => accept s
  | .handedOver _ => .next s.emptySlot
  | .waiting => .next s.wait
  | .presented => .next s
  | .idle => .next s

/-- What the host learns from an event: it has a request in flight from its acceptance to its handover, and takes the
response at the handover, writing `WOUT` back to its store if it chooses (spec/70_reset_and_hazards.md R77, R82;
spec/10_state.md R16). A reset edge loses the request in flight (R75). DESIGN CHOICE (log 20), safe: the record. DESIGN
CHOICE (log 22), unsafe for a claim about the store: the spec leaves the store to the host, and here it changes only by
taking all sixteen words of `WOUT` at a handover, never in part and never by a write of the host's own. -/
def HostAgent.learns (h : HostAgent) (e : EdgeEvent) : HostAgent :=
  match e with
  | .reset => { h with issued := none }
  | .accepted q => { h with issued := some q }
  | .handedOver r =>
    { h with
      issued := none
      taken := h.taken ++ (h.issued.map fun q => { req := q, rsp := r }).toList
      store := if h.writesBack then r.wout else h.store }
  | .waiting => h
  | .presented => h
  | .idle => h

/-- Whether the host goes on to its next act after the edge (log 2). -/
def Hold.released (h : Hold) (e : EdgeEvent) : Bool :=
  match h, e with
  | .oneEdge, _ => true
  | .untilAccepted, .accepted _ => true
  | .untilHandedOver, .handedOver _ => true
  | _, _ => false

/-- The host drives the levels of an act (log 2). -/
def State.play (s : State) (a : HostAct) : State :=
  { s with
    ports :=
      { rstN := a.rstN
        reqValid := a.reqValid
        reqCmd := a.cmd
        reqVin := a.vin
        reqWin := match a.win with
          | .store => s.host.store
          | .copy ws => ws
        rspReady := a.rspReady }
    host := { s.host with reads := a.reads, writesBack := a.writesBack, hold := a.hold } }

/-- The host's acts are used up: it presents no command, takes no response, reads nothing and leaves `rst_n` at 1.
DESIGN CHOICE (log 2), unsafe for a claim about a run past the script's end. -/
def State.rest (s : State) : State :=
  { s with
    ports := { s.ports with rstN := true, reqValid := false, rspReady := false }
    host := { s.host with reads := .nothing, writesBack := false, hold := .oneEdge } }

/-- The host's part of an edge: it learns from the event, then keeps its levels or goes on to its next act (log 2, 10). -/
def State.hostEdge (s : State) (e : EdgeEvent) : State :=
  let t := { s with host := s.host.learns e }
  if s.host.hold.released e then
    match s.host.script with
    | [] => t.rest
    | a :: as => { t with host := { t.host with script := as } }.play a
  else t

/-- The command of the request in flight is RDF or MRD. -/
def HostAgent.awaitsValue (h : HostAgent) : Bool :=
  match h.issued with
  | none => false
  | some q =>
    match decode q.cmd with
    | .ok i => i.isRead
    | .error _ => false

/-- Why the host's reading at the coming edge stops the machine, if it does: the outputs have no value
(spec/70_reset_and_hazards.md R79; log 6), or `VOUT` is read as a field value that it is not (R83; log 7). -/
def State.readFault (latency : Nat) (s : State) : Option Fault :=
  match s.host.reads with
  | .nothing => none
  | .outputs =>
    match s.presents latency with
    | none => some .outputHasNoValue
    | some _ => none
  | .fieldValue =>
    match s.presents latency with
    | none => some .outputHasNoValue
    | some r => if r.status = .ok ∧ s.host.awaitsValue then none else some .voutIsNoFieldValue

/-- One rising edge of `clk`, for a given LATENCY. -/
def edge (latency : Nat) (s : State) : Host.Outcome State Fault Refusal :=
  match s.readFault latency with
  | some f => .fault f
  | none =>
    match fbaEdge (s.event latency) s with
    | .next t => .next (t.hostEdge (s.event latency))
    | .fault f => .fault f
    | .refused r => .refused r

/-- The state with the command `c` presented to an FBA that can accept it, and a host that reads nothing. -/
def State.present (s : State) (c : Command) : State :=
  { s with
    slot := none
    ports := { s.ports with rstN := true, reqValid := true, reqCmd := c }
    host := { s.host with reads := .nothing } }

end Sys2Proof.Machine
end

