-- ==== Sys2Proof/Machine/Step.lean ====
section
/-! DEFINITION. The step: one rising edge of `clk` at the hardware's LATENCY. -/

namespace Sys2Proof.Machine

/-- One rising edge of `clk` (spec/70_reset_and_hazards.md R75 to R78; log 1, 17). -/
def step (s : State) : Host.Outcome State Fault Refusal := edge Config.latency s

/-- `s` with the command word `w` presented, so that the next step accepts and runs it (log 11): the FBA fetches
nothing (spec/20_memory.md R35), a command is what the host presents on `req_cmd`. -/
def State.withFetchWord (s : State) (nbits w : Nat) : State := s.present (tableCommand nbits w)

end Sys2Proof.Machine
end

