-- ==== Sys2Proof/Machine/Transaction.lean ====
section
/-! DEFINITION. The transaction-level view, where each transaction is one atomic step from its operands to its
response (spec/70_reset_and_hazards.md, preamble; spec/10_state.md R12), and the write-back harness over it (R82). -/

namespace Sys2Proof.Machine

/-- The response of a command to the operands of its transaction. -/
def respondTo (i : Instr) (q : Request) : Response :=
  match i with
  | .rdf o w => rdf o w q
  | .wrf o w => wrf o w q
  | .mrd n o w => mrd n o w q
  | .mwr n o w => mwr n o w q

/-- The response to a transaction: a function of its operands alone (spec/10_state.md R12). -/
def Request.response (q : Request) : Response :=
  match decode q.cmd with
  | .ok i => respondTo i q
  | .error _ => q.raise .illegalCommand

/-- One transaction of a host's program: `CMD` and `VIN` (spec/30_encoding.md R45). -/
structure Issue where
  cmd : Command
  vin : Word
  deriving DecidableEq, Repr

/-- The request the write-back harness makes of an issue: its words are the store's (spec/70_reset_and_hazards.md
R82). -/
def Issue.request (c : Issue) (store : Words) : Request := { cmd := c.cmd, vin := c.vin, win := store }

/-- The write-back harness: after every response the store takes WOUT (spec/70_reset_and_hazards.md R82). -/
def harness : List Issue → Words → List Transaction × Words
  | [], store => ([], store)
  | c :: cs, store =>
    let q := c.request store
    let rest := harness cs q.response.wout
    ({ req := q, rsp := q.response } :: rest.1, rest.2)

/-- The act that presents a command with the store's words, until it is accepted. -/
def Issue.presentAct (c : Issue) : HostAct :=
  { rstN := true, reqValid := true, cmd := c.cmd, vin := c.vin, win := .store, rspReady := false,
    reads := .nothing, writesBack := true, hold := .untilAccepted }

/-- The act that takes the response and writes it back. -/
def Issue.takeAct (c : Issue) : HostAct :=
  { rstN := true, reqValid := false, cmd := c.cmd, vin := c.vin, win := .store, rspReady := true,
    reads := .nothing, writesBack := true, hold := .untilHandedOver }

/-- The write-back harness as acts of the host at the ports (spec/70_reset_and_hazards.md R76, R77, R82). -/
def harnessScript : List Issue → List HostAct
  | [] => []
  | c :: cs => c.presentAct :: c.takeAct :: harnessScript cs

end Sys2Proof.Machine
end

