-- ==== Sys2Proof/Machine/Assembler.lean ====
section
/-! DEFINITION. The assembler syntax of spec/30_encoding.md R45: one line, one transaction. -/

namespace Sys2Proof.Machine

/-- A line, before its operands are checked: any numbers may be written. -/
inductive Line where
  | rdf (o w : Nat)
  | wrf (o w v : Nat)
  | mrd (n o w : Nat)
  | mwr (n o w v : Nat)
  deriving DecidableEq, Repr

/-- Why a line is no transaction. -/
inductive LineError where
  /-- It is not of one of the four forms. -/
  | notALine
  /-- Its operands have no encoding (spec/30_encoding.md R44; spec/93_implementation_defined.md U11). -/
  | noEncoding
  /-- Its value has no place on `VIN` (spec/93_implementation_defined.md U12). -/
  | noValue
  deriving DecidableEq, Repr

/-- The command of a line. -/
def Line.instr : Line → Instr
  | .rdf o w => .rdf o w
  | .wrf o w _ => .wrf o w
  | .mrd n o w => .mrd n o w
  | .mwr n o w _ => .mwr n o w

/-- The value a line presents on `VIN`; 0 for a read (spec/30_encoding.md R45). -/
def Line.value : Line → Nat
  | .rdf _ _ => 0
  | .wrf _ _ v => v
  | .mrd _ _ _ => 0
  | .mwr _ _ _ v => v

/-- CMD and VIN of a line (spec/30_encoding.md R45). A line no command can express is refused by name
(spec/93_implementation_defined.md U11, U12; log 18). -/
def Line.assemble (l : Line) : Except LineError Issue :=
  if l.instr.wellFormed then
    if l.value < 2 ^ Config.W then .ok { cmd := encode l.instr, vin := toWord l.value } else .error .noValue
  else .error .noEncoding

/-- A digit of a number in base 10 or 16. -/
def digit (base : Nat) (c : Char) : Option Nat :=
  let d :=
    if '0' ≤ c ∧ c ≤ '9' then some (c.toNat - '0'.toNat)
    else if 'a' ≤ c ∧ c ≤ 'f' then some (c.toNat - 'a'.toNat + 10)
    else if 'A' ≤ c ∧ c ≤ 'F' then some (c.toNat - 'A'.toNat + 10)
    else none
  d.filter (· < base)

/-- The digits of a number, most significant first. -/
def digits (base : Nat) : Nat → List Char → Option Nat
  | acc, [] => some acc
  | acc, c :: cs =>
    match digit base c with
    | none => none
    | some d => digits base (acc * base + d) cs

/-- A number: decimal, or hexadecimal with a `0x` in front (spec/30_encoding.md R45). -/
def number : List Char → Option Nat
  | [] => none
  | ['0', 'x'] => none
  | '0' :: 'x' :: cs => digits 16 0 cs
  | cs => digits 10 0 cs

/-- The pieces of a text between the characters `sep`. -/
def pieces (sep : Char) : List Char → List (List Char)
  | [] => [[]]
  | c :: cs =>
    match pieces sep cs with
    | [] => [[]]
    | p :: ps => if c = sep then [] :: p :: ps else (c :: p) :: ps

/-- The numbers of a text that separates them by commas; spaces do not count (log 18). -/
def operands (cs : List Char) : Option (List Nat) := (pieces ',' (cs.filter (· ≠ ' '))).mapM number

/-- A line of text: a mnemonic, a space, and its operands (spec/30_encoding.md R45). -/
def parseLine (cs : List Char) : Except LineError Line :=
  let (name, rest) := cs.span (· ≠ ' ')
  match name, operands rest with
  | ['r', 'd', 'f'], some [o, w] => .ok (.rdf o w)
  | ['w', 'r', 'f'], some [o, w, v] => .ok (.wrf o w v)
  | ['m', 'r', 'd'], some [n, o, w] => .ok (.mrd n o w)
  | ['m', 'w', 'r'], some [n, o, w, v] => .ok (.mwr n o w v)
  | _, _ => .error .notALine

/-- CMD and VIN of a line of text (spec/30_encoding.md R45). -/
def assembleText (cs : List Char) : Except LineError Issue :=
  match parseLine cs with
  | .ok l => l.assemble
  | .error e => .error e

end Sys2Proof.Machine
end

