-- ==== Sys2Proof/Machine/Layout.lean ====
section
/-! DEFINITION. The host sequences that spec/30_encoding.md R45 gives for a whole layout: one WRF a field from an
all-zero word, and one RDF a field. They are the host's, built from the FBA's commands (spec/00_scope.md R4). -/

namespace Sys2Proof.Machine

/-- A field of a layout: its width, and the value to write. -/
structure Field where
  width : Nat
  value : Nat
  deriving DecidableEq, Repr

/-- `wrf offset_i, widths[i], values[i]` for each field in order, the first at offset `o` (spec/30_encoding.md R45). -/
def layoutWrites : Nat → List Field → List Issue
  | _, [] => []
  | o, f :: fs => { cmd := encode (.wrf o f.width), vin := toWord f.value } :: layoutWrites (o + f.width) fs

/-- `rdf offset_i, widths[i]` for each field in order, the first at offset `o` (spec/30_encoding.md R45). -/
def layoutReads : Nat → List Field → List Issue
  | _, [] => []
  | o, f :: fs => { cmd := encode (.rdf o f.width), vin := 0#256 } :: layoutReads (o + f.width) fs

/-- The bits a layout takes. -/
def layoutBits : List Field → Nat
  | [] => 0
  | f :: fs => f.width + layoutBits fs

/-- The store after the writes of a layout, from all-zero words (spec/70_reset_and_hazards.md R80, R82). -/
def encodeLayout (fs : List Field) : Words := (harness (layoutWrites 0 fs) zeroWords).2

/-- The responses to the reads of a layout. -/
def decodeLayout (fs : List Field) (store : Words) : List Response :=
  (harness (layoutReads 0 fs) store).1.map (·.rsp)

end Sys2Proof.Machine
end

