-- ==== Sys2Proof/Safety.lean ====
section
/-! DEFINITION. The terms the claims are made in: the fields of a command word by position, the bit-offset space, the
joined words, the invariant, and runs. -/

namespace Sys2Proof.Machine

/-- OP by position: `CMD[2:0]` (spec/30_encoding.md R36). -/
def opOf (c : Command) : Nat := c.toNat % 2 ^ 3

/-- WIDTH by position: `CMD[11:3]` (spec/30_encoding.md R36). -/
def widthOf (c : Command) : Nat := c.toNat / 2 ^ 3 % 2 ^ 9

/-- OFFSET by position: `CMD[23:12]` (spec/30_encoding.md R36). -/
def offsetOf (c : Command) : Nat := c.toNat / 2 ^ 12 % 2 ^ 12

/-- NWM1 by position: `CMD[27:24]` (spec/30_encoding.md R36). -/
def nwm1Of (c : Command) : Nat := c.toNat / 2 ^ 24 % 2 ^ 4

/-- RSV by position: `CMD[31:28]` (spec/30_encoding.md R36). -/
def rsvOf (c : Command) : Nat := c.toNat / 2 ^ 28

/-- The four conditions of spec/30_encoding.md R40, on the fields by position. -/
def LegalWord (c : Command) : Prop :=
  rsvOf c = 0 ∧ (opOf c = 1 ∨ opOf c = 2 ∨ opOf c = 3 ∨ opOf c = 4) ∧ widthOf c ≠ 0
    ∧ (opOf c = 3 ∨ opOf c = 4 ∨ nwm1Of c = 0)

/-- The field of a legal command word does not fit (spec/60_exceptions.md R67). -/
def FieldDoesNotFit (c : Command) : Prop :=
  if opOf c = 1 ∨ opOf c = 2 then 256 < offsetOf c + widthOf c
  else 256 < widthOf c ∨ (nwm1Of c + 1) * 256 < offsetOf c + widthOf c

/-- Bit `a` of the bit-offset space: bit `a mod W` of word `a / W` (spec/20_memory.md R25, R26). -/
def offsetBit (ws : Words) (a : Nat) : Bool := (getWord ws (a / 256)).getLsbD (a % 256)

/-- C, the first `n` words joined with word 0 lowest: the sum of `WIN[j] << (j * W)` (spec/41_multiword.md R59). -/
def joined (ws : Words) : Nat → Nat
  | 0 => 0
  | n + 1 => joined ws n + (getWord ws n).toNat * 2 ^ (n * 256)

/-- A transaction is accepted at the coming edge (spec/70_reset_and_hazards.md R76). -/
def State.Accepting (s : State) : Prop := s.ports.rstN = true ∧ s.ports.reqValid = true ∧ s.slot = none

/-- The response an outcome leaves in the slot. -/
def answerOf (o : Host.Outcome State Fault Refusal) : Option Response :=
  match o with
  | .next t => t.slot.map (·.rsp)
  | .fault _ => none
  | .refused _ => none

/-- `s` with other words presented. -/
def State.withWords (s : State) (ws : Words) : State := { s with ports := { s.ports with reqWin := ws } }

/-- `s` with another value presented. -/
def State.withVin (s : State) (v : Word) : State := { s with ports := { s.ports with reqVin := v } }

/-- The transaction of a request: the request with the response it gets. -/
def Request.transaction (q : Request) : Transaction := { req := q, rsp := q.response }

/-- What every step keeps: the slot is full exactly while the host has a request in flight, and holds the response to
that request; the response has waited at least one edge and at most LATENCY; and every response the host took is the
one its own operands give (spec/10_state.md R12, R22; spec/20_memory.md R33; spec/70_reset_and_hazards.md R77, R78). -/
structure State.Inv (latency : Nat) (s : State) : Prop where
  slot_answers_issued : s.slot.map (·.rsp) = s.host.issued.map Request.response
  waited_bounds : ∀ f, s.slot = some f → 1 ≤ f.waited ∧ f.waited ≤ latency
  taken_correct : ∀ t ∈ s.host.taken, t.rsp = t.req.response

/-- The transaction in flight, as a list of at most one. -/
def State.inFlight (s : State) : List Transaction := (s.host.issued.map Request.transaction).toList

/-- `n` edges with `rst_n = 1` at each and no stop: a run no reset and no forbidden read cuts short. -/
def runAwake (latency : Nat) : Nat → State → Option State
  | 0, s => some s
  | n + 1, s =>
    if s.ports.rstN then
      match edge latency s with
      | .next t => runAwake latency n t
      | .fault _ => none
      | .refused _ => none
    else none

/-- The requests accepted at the first `n` edges, oldest first. -/
def acceptedIn (latency : Nat) : Nat → State → List Request
  | 0, _ => []
  | n + 1, s =>
    (match s.event latency with
      | .accepted q => [q]
      | _ => [])
    ++ (match edge latency s with
      | .next t => acceptedIn latency n t
      | .fault _ => []
      | .refused _ => [])

/-- The host is about to begin the script: nothing is in flight, nothing is presented or read, and it goes on to its
next act at the coming edge. -/
def State.AtStart (s : State) : Prop :=
  s.slot = none ∧ s.host.issued = none ∧ s.ports.rstN = true ∧ s.ports.reqValid = false ∧ s.host.reads = .nothing
    ∧ s.host.hold = .oneEdge

end Sys2Proof.Machine
end

