-- ==== Sys2Proof/Certificates/Slice0/Obligations.lean ====
section
/-! DEFINITION. The statements about the FBA, made from the spec's numbered rules. -/

open Sys2Proof Sys2Proof.Machine

/-! ### Encoding (spec/30_encoding.md) -/

/-- The encoding function of R44 on its whole domain, its examples, and that the decoder inverts it: no bit of an
encoding is dropped. -/
def Obligations.EncodeThenDecode : Prop :=
  (∀ i : Instr, i.wellFormed = true → decode (encode i) = .ok i)
  ∧ (∀ o w, (Instr.rdf o w).wellFormed = true →
      (encode (.rdf o w)).toNat = ((0 <<< 24) ||| (o <<< 12) ||| (w <<< 3) ||| 1))
  ∧ (∀ o w, (Instr.wrf o w).wellFormed = true →
      (encode (.wrf o w)).toNat = ((0 <<< 24) ||| (o <<< 12) ||| (w <<< 3) ||| 2))
  ∧ (∀ n o w, (Instr.mrd n o w).wellFormed = true →
      (encode (.mrd n o w)).toNat = (((n - 1) <<< 24) ||| (o <<< 12) ||| (w <<< 3) ||| 3))
  ∧ (∀ n o w, (Instr.mwr n o w).wellFormed = true →
      (encode (.mwr n o w)).toNat = (((n - 1) <<< 24) ||| (o <<< 12) ||| (w <<< 3) ||| 4))
  ∧ encode (.rdf 0 8) = 0x00000041#32
  ∧ encode (.wrf 8 160) = 0x00008502#32
  ∧ encode (.mwr 2 250 160) = 0x010FA504#32

/-- Each legal command word is the encoding of the command it decodes to: no two words mean the same command, and the
decoder gives no command that cannot be encoded (from R37 and R44). -/
def Obligations.DecodeThenEncode : Prop :=
  ∀ (c : Command) (i : Instr), decode c = .ok i → i.wellFormed = true ∧ encode i = c

/-- R37's five fields are the bits at their places, unsigned and unscaled, in every word; a legal word is the command
its OP names in R39, with those operands; every other word is no command. -/
def Obligations.DecodeReadsTheFields : Prop :=
  ∀ c : Command,
    (fieldOp c = opOf c ∧ fieldWidth c = widthOf c ∧ fieldOffset c = offsetOf c ∧ fieldNwm1 c = nwm1Of c
      ∧ fieldRsv c = rsvOf c)
    ∧ (LegalWord c →
      (opOf c = 1 → decode c = .ok (.rdf (offsetOf c) (widthOf c)))
      ∧ (opOf c = 2 → decode c = .ok (.wrf (offsetOf c) (widthOf c)))
      ∧ (opOf c = 3 → decode c = .ok (.mrd (nwm1Of c + 1) (offsetOf c) (widthOf c)))
      ∧ (opOf c = 4 → decode c = .ok (.mwr (nwm1Of c + 1) (offsetOf c) (widthOf c))))
    ∧ (¬ LegalWord c → ∃ e, decode c = .error e)

/-- R38's word count and R7's capacity of every decoded command. -/
def Obligations.WordCountAndCapacity : Prop :=
  ∀ (c : Command) (i : Instr), decode c = .ok i →
    ((opOf c = 3 ∨ opOf c = 4) → i.wordCount = nwm1Of c + 1)
    ∧ ((opOf c = 1 ∨ opOf c = 2) → i.wordCount = 1 ∧ i.capacity = 256)
    ∧ 1 ≤ i.wordCount ∧ i.wordCount ≤ 16
    ∧ i.capacity = i.wordCount * 256

/-- R47 on the rows of spec/opcode_table.json, their masks and match values written out: a word decodes to a row's
command exactly when it matches the row and its width is not 0, no word matches two rows, and the words that decode to
none are the illegal ones. -/
def Obligations.OpcodeTableRowsAreDisjoint : Prop :=
  ∀ c : Command,
    ((∃ o w, decode c = .ok (.rdf o w)) ↔ c &&& 0xFF000007#32 = 0x00000001#32 ∧ widthOf c ≠ 0)
    ∧ ((∃ o w, decode c = .ok (.wrf o w)) ↔ c &&& 0xFF000007#32 = 0x00000002#32 ∧ widthOf c ≠ 0)
    ∧ ((∃ n o w, decode c = .ok (.mrd n o w)) ↔ c &&& 0xF0000007#32 = 0x00000003#32 ∧ widthOf c ≠ 0)
    ∧ ((∃ n o w, decode c = .ok (.mwr n o w)) ↔ c &&& 0xF0000007#32 = 0x00000004#32 ∧ widthOf c ≠ 0)
    ∧ ((∃ e, decode c = .error e) ↔ ¬ LegalWord c)
    ∧ [(0xFF000007#32, 0x00000001#32), (0xFF000007#32, 0x00000002#32), (0xF0000007#32, 0x00000003#32),
        (0xF0000007#32, 0x00000004#32)].countP (fun row => c &&& row.1 == row.2) ≤ 1

/-- Words of the spec's decode vectors (spec/95_test_vectors.md part 2), a sanity check. -/
def Obligations.SpecWordsDecode : Prop :=
  decode 0x00004041#32 = .ok (.rdf 4 8)
  ∧ decode 0x00008502#32 = .ok (.wrf 8 160)
  ∧ decode 0x010fa503#32 = .ok (.mrd 2 250 160)
  ∧ decode 0x010fa504#32 = .ok (.mwr 2 250 160)
  ∧ decode 0x0ffff00b#32 = .ok (.mrd 16 4095 1)
  ∧ decode 0x00000000#32 = .error .reservedOpcode
  ∧ decode 0x10000041#32 = .error .reservedBits
  ∧ decode 0x00000001#32 = .error .zeroWidth
  ∧ decode 0x0f000041#32 = .error .wordCountOnSingle

/-! ### A step runs the decoded command (spec/70_reset_and_hazards.md R76) -/

/-- At an accepting edge where the host reads nothing, the step is exec of the command that `req_cmd` decodes to,
followed by the host's own part of the edge. -/
def Obligations.StepRunsDecodedCommand : Prop :=
  ∀ (s : State) (i : Instr), s.Accepting → s.host.reads = .nothing → decode s.ports.reqCmd = .ok i →
    ∃ t, exec i s = .next t ∧ step s = .next (t.hostEdge (.accepted s.request))

/-- The state with a command word presented accepts and runs it at the very next step (the model's own loading
function, log 11). -/
def Obligations.PresentedWordRunsNext : Prop :=
  ∀ (s : State) (c : Command) (i : Instr), decode c = .ok i →
    (s.withFetchWord 32 c.toNat).Accepting
    ∧ (s.withFetchWord 32 c.toNat).ports.reqCmd = c
    ∧ ∃ t, exec i (s.withFetchWord 32 c.toNat) = .next t
        ∧ step (s.withFetchWord 32 c.toNat) = .next (t.hostEdge (.accepted (s.withFetchWord 32 c.toNat).request))

/-- R40: a legal word is run, whatever its width and offset; any other is answered with ILLEGAL_COMMAND before any
other check. -/
def Obligations.IllegalCommandAnswered : Prop :=
  ∀ s : State, s.Accepting → s.host.reads = .nothing →
    (LegalWord s.ports.reqCmd →
      ∃ i t, decode s.ports.reqCmd = .ok i ∧ exec i s = .next t
        ∧ step s = .next (t.hostEdge (.accepted s.request)))
    ∧ (¬ LegalWord s.ports.reqCmd →
      step s = .next (State.hostEdge
        { s with slot := some { rsp := { status := .illegalCommand, vout := 0#256, wout := s.ports.reqWin }, waited := 1 } }
        (.accepted s.request)))

/-! ### The commands (spec/40_field_accessor.md, spec/41_multiword.md) -/

/-- Every command completes in one step of its own, and changes nothing but the slot: the ports and the host are as
before. -/
def Obligations.CommandsCompleteAndFillOnlyTheSlot : Prop :=
  ∀ (i : Instr) (s : State), ∃ r : Response, exec i s = .next { s with slot := some { rsp := r, waited := 1 } }

/-- RDF (R49): its encoding, its value, and its error. -/
def Obligations.RdfReadsField : Prop :=
  (∀ (c : Command) (o w : Nat), decode c = .ok (.rdf o w) ↔
    rsvOf c = 0 ∧ nwm1Of c = 0 ∧ opOf c = 1 ∧ offsetOf c = o ∧ widthOf c = w ∧ w ≠ 0)
  ∧ (∀ (s : State) (o w : Nat), 1 ≤ w →
    (o + w ≤ 256 →
      ∃ v : Word,
        exec (.rdf o w) s
          = .next { s with slot := some { rsp := { status := .ok, vout := v, wout := s.ports.reqWin }, waited := 1 } }
        ∧ v.toNat = (((getWord s.ports.reqWin 0).toNat >>> o) &&& (2 ^ w - 1))
        ∧ ∀ b, b < 256 → v.getLsbD b = (decide (b < w) && (getWord s.ports.reqWin 0).getLsbD (o + b)))
    ∧ (256 < o + w →
      exec (.rdf o w) s
        = .next { s with
            slot := some { rsp := { status := .tooManyBits, vout := 0#256, wout := s.ports.reqWin }, waited := 1 } }))

/-- WRF (R50): its encoding, the word it writes, and its errors in the order of R69. -/
def Obligations.WrfWritesField : Prop :=
  (∀ (c : Command) (o w : Nat), decode c = .ok (.wrf o w) ↔
    rsvOf c = 0 ∧ nwm1Of c = 0 ∧ opOf c = 2 ∧ offsetOf c = o ∧ widthOf c = w ∧ w ≠ 0)
  ∧ (∀ (s : State) (o w : Nat), 1 ≤ w →
    (o + w ≤ 256 → s.ports.reqVin.toNat < 2 ^ w →
      ∃ y : Word,
        exec (.wrf o w) s
          = .next { s with
              slot := some
                { rsp := { status := .ok, vout := 0#256, wout := s.ports.reqWin.setIfInBounds 0 y }, waited := 1 } }
        ∧ y.toNat
          = (((getWord s.ports.reqWin 0).toNat &&& ((2 ^ 256 - 1) - ((2 ^ w - 1) <<< o)))
              ||| (s.ports.reqVin.toNat <<< o))
        ∧ ∀ b, b < 256 → y.getLsbD b
            = if o ≤ b ∧ b < o + w then s.ports.reqVin.getLsbD (b - o) else (getWord s.ports.reqWin 0).getLsbD b)
    ∧ (o + w ≤ 256 → 2 ^ w ≤ s.ports.reqVin.toNat →
      exec (.wrf o w) s
        = .next { s with
            slot := some { rsp := { status := .valueTooLarge, vout := 0#256, wout := s.ports.reqWin }, waited := 1 } })
    ∧ (256 < o + w →
      exec (.wrf o w) s
        = .next { s with
            slot := some { rsp := { status := .tooManyBits, vout := 0#256, wout := s.ports.reqWin }, waited := 1 } }))

/-- MRD (R59, with the split of R56 and R57): its encoding, its value by the two-word split, the closed form on the
joined words, and its error. -/
def Obligations.MrdReadsField : Prop :=
  (∀ (c : Command) (n o w : Nat), decode c = .ok (.mrd n o w) ↔
    rsvOf c = 0 ∧ opOf c = 3 ∧ nwm1Of c + 1 = n ∧ offsetOf c = o ∧ widthOf c = w ∧ w ≠ 0)
  ∧ (∀ (s : State) (n o w : Nat), 1 ≤ n → n ≤ 16 → 1 ≤ w →
    (w ≤ 256 → o + w ≤ n * 256 →
      ∃ v : Word,
        exec (.mrd n o w) s
          = .next { s with slot := some { rsp := { status := .ok, vout := v, wout := s.ports.reqWin }, waited := 1 } }
        ∧ (o % 256 + w ≤ 256 →
            v.toNat = (((getWord s.ports.reqWin (o / 256)).toNat >>> (o % 256)) &&& (2 ^ w - 1)))
        ∧ (256 < o % 256 + w →
            v.toNat
              = ((((getWord s.ports.reqWin (o / 256)).toNat >>> (o % 256)) &&& (2 ^ (256 - o % 256) - 1))
                ||| (((getWord s.ports.reqWin (o / 256 + 1)).toNat &&& (2 ^ (w - (256 - o % 256)) - 1))
                      <<< (256 - o % 256))))
        ∧ v.toNat = ((joined s.ports.reqWin n >>> o) &&& (2 ^ w - 1)))
    ∧ (256 < w ∨ n * 256 < o + w →
      exec (.mrd n o w) s
        = .next { s with
            slot := some { rsp := { status := .tooManyBits, vout := 0#256, wout := s.ports.reqWin }, waited := 1 } }))

/-- MWR (R60, with the split of R56 and R57): its encoding, the one or two words it writes, the closed form on the
joined words, and its errors in the order of R69. -/
def Obligations.MwrWritesField : Prop :=
  (∀ (c : Command) (n o w : Nat), decode c = .ok (.mwr n o w) ↔
    rsvOf c = 0 ∧ opOf c = 4 ∧ nwm1Of c + 1 = n ∧ offsetOf c = o ∧ widthOf c = w ∧ w ≠ 0)
  ∧ (∀ (s : State) (n o w : Nat), 1 ≤ n → n ≤ 16 → 1 ≤ w →
    (w ≤ 256 → o + w ≤ n * 256 → s.ports.reqVin.toNat < 2 ^ w →
      ∃ ws : Words,
        exec (.mwr n o w) s
          = .next { s with slot := some { rsp := { status := .ok, vout := 0#256, wout := ws }, waited := 1 } }
        ∧ (o % 256 + w ≤ 256 →
            (getWord ws (o / 256)).toNat
              = (((getWord s.ports.reqWin (o / 256)).toNat &&& ((2 ^ 256 - 1) - ((2 ^ w - 1) <<< (o % 256))))
                  ||| (s.ports.reqVin.toNat <<< (o % 256)))
            ∧ ∀ j, j ≠ o / 256 → getWord ws j = getWord s.ports.reqWin j)
        ∧ (256 < o % 256 + w →
            (getWord ws (o / 256)).toNat
              = (((getWord s.ports.reqWin (o / 256)).toNat
                    &&& ((2 ^ 256 - 1) - ((2 ^ (256 - o % 256) - 1) <<< (o % 256))))
                  ||| ((s.ports.reqVin.toNat &&& (2 ^ (256 - o % 256) - 1)) <<< (o % 256)))
            ∧ (getWord ws (o / 256 + 1)).toNat
              = (((getWord s.ports.reqWin (o / 256 + 1)).toNat
                    &&& ((2 ^ 256 - 1) - (2 ^ (w - (256 - o % 256)) - 1)))
                  ||| (s.ports.reqVin.toNat >>> (256 - o % 256)))
            ∧ ∀ j, j ≠ o / 256 → j ≠ o / 256 + 1 → getWord ws j = getWord s.ports.reqWin j)
        ∧ joined ws n
            = ((joined s.ports.reqWin n &&& ((2 ^ (n * 256) - 1) - ((2 ^ w - 1) <<< o)))
                ||| (s.ports.reqVin.toNat <<< o)))
    ∧ (w ≤ 256 → o + w ≤ n * 256 → 2 ^ w ≤ s.ports.reqVin.toNat →
      exec (.mwr n o w) s
        = .next { s with
            slot := some { rsp := { status := .valueTooLarge, vout := 0#256, wout := s.ports.reqWin }, waited := 1 } })
    ∧ (256 < w ∨ n * 256 < o + w →
      exec (.mwr n o w) s
        = .next { s with
            slot := some { rsp := { status := .tooManyBits, vout := 0#256, wout := s.ports.reqWin }, waited := 1 } }))

/-- In the bit-offset space of R25 and R26, a successful read gives bit `o + b` of the space as bit `b` of VOUT, and
zero above the width (R9, R29), for both reads and across word boundaries. -/
def Obligations.ReadsGiveTheFieldBits : Prop :=
  ∀ (i : Instr) (s : State) (r : Response), i.isRead = true → i.wellFormed = true →
    answerOf (exec i s) = some r → r.status = .ok →
    ∀ b, b < 256 → r.vout.getLsbD b = (decide (b < i.width) && offsetBit s.ports.reqWin (i.offset + b))

/-- In the bit-offset space of R25 and R26, a successful write puts bit `b` of VIN at offset `o + b` and leaves every
other offset of all sixteen words as it was, for both writes and across word boundaries. -/
def Obligations.WritesReplaceExactlyTheField : Prop :=
  ∀ (i : Instr) (s : State) (r : Response), i.isRead = false → i.wellFormed = true →
    answerOf (exec i s) = some r → r.status = .ok →
    ∀ a, offsetBit r.wout a
      = if i.offset ≤ a ∧ a < i.offset + i.width then s.ports.reqVin.getLsbD (a - i.offset)
        else offsetBit s.ports.reqWin a

/-- R15: the words no command writes, and the bits outside the field in the words it does. -/
def Obligations.UnwrittenWordsPassThrough : Prop :=
  ∀ (i : Instr) (s : State) (r : Response), i.wellFormed = true → answerOf (exec i s) = some r →
    (i.isRead = true → r.wout = s.ports.reqWin)
    ∧ (r.status ≠ .ok → r.wout = s.ports.reqWin)
    ∧ (∀ o w, i = .wrf o w → ∀ k, k ≠ 0 → getWord r.wout k = getWord s.ports.reqWin k)
    ∧ (∀ n o w, i = .mwr n o w → ∀ k, k ≠ o / 256 → (k = o / 256 + 1 → o % 256 + w ≤ 256) →
        getWord r.wout k = getWord s.ports.reqWin k)
    ∧ (∀ a, (a < i.offset ∨ i.offset + i.width ≤ a) → offsetBit r.wout a = offsetBit s.ports.reqWin a)

/-- R24: the operands a command does not use are neither checked nor changed. -/
def Obligations.UnusedOperandsAreIgnored : Prop :=
  ∀ (i : Instr) (s : State) (r : Response), i.wellFormed = true → answerOf (exec i s) = some r →
    (i.isRead = true → ∀ v, answerOf (exec i (s.withVin v)) = some r)
    ∧ (∀ k, i.wordCount ≤ k → getWord r.wout k = getWord s.ports.reqWin k)
    ∧ (∀ ws, (∀ k, k < i.wordCount → getWord ws k = getWord s.ports.reqWin k) →
        ∃ r', answerOf (exec i (s.withWords ws)) = some r' ∧ r'.status = r.status ∧ r'.vout = r.vout
          ∧ (∀ k, k < i.wordCount → getWord r'.wout k = getWord r.wout k)
          ∧ ∀ k, i.wordCount ≤ k → getWord r'.wout k = getWord ws k)

/-- R31: a read changes no word and depends on the bits of its field alone, and a write applied again to its own WOUT
changes nothing more. -/
def Obligations.ReadsHaveNoSideEffect : Prop :=
  ∀ (i : Instr) (s : State) (r : Response), i.wellFormed = true → answerOf (exec i s) = some r →
    (i.isRead = true →
      r.wout = s.ports.reqWin
      ∧ ∀ ws, (∀ a, i.offset ≤ a → a < i.offset + i.width → offsetBit ws a = offsetBit s.ports.reqWin a) →
          ∃ r', answerOf (exec i (s.withWords ws)) = some r' ∧ r'.status = r.status ∧ r'.vout = r.vout
            ∧ r'.wout = ws)
    ∧ (i.isRead = false → answerOf (exec i (s.withWords r.wout)) = some r)

/-! ### Laws of the field accessor (spec/40_field_accessor.md R51 to R55) -/

/-- R51. -/
def Obligations.RdfResultIsBelowItsWidth : Prop :=
  ∀ (s : State) (o w : Nat) (r : Response), answerOf (exec (.rdf o w) s) = some r → r.status = .ok →
    r.vout.toNat < 2 ^ w ∧ r.vout.toNat < 2 ^ 256

/-- R52. -/
def Obligations.RdfAfterWrfGivesTheValue : Prop :=
  ∀ (s : State) (o w : Nat) (r : Response), 1 ≤ w → answerOf (exec (.wrf o w) s) = some r → r.status = .ok →
    answerOf (exec (.rdf o w) (s.withWords r.wout))
      = some { status := .ok, vout := s.ports.reqVin, wout := r.wout }

/-- R53. -/
def Obligations.WrfChangesOnlyItsField : Prop :=
  ∀ (s : State) (o w : Nat) (r : Response), 1 ≤ w → answerOf (exec (.wrf o w) s) = some r → r.status = .ok →
    (∀ b, b < o ∨ (o + w ≤ b ∧ b < 256) →
      (getWord r.wout 0).getLsbD b = (getWord s.ports.reqWin 0).getLsbD b)
    ∧ ∀ o2 w2, 1 ≤ w2 → o2 + w2 ≤ o ∨ o + w ≤ o2 → o2 + w2 ≤ 256 →
        ∃ v, answerOf (exec (.rdf o2 w2) s) = some { status := .ok, vout := v, wout := s.ports.reqWin }
          ∧ answerOf (exec (.rdf o2 w2) (s.withWords r.wout)) = some { status := .ok, vout := v, wout := r.wout }

/-- R54. -/
def Obligations.WritingBackTheValueReadChangesNothing : Prop :=
  ∀ (s : State) (o w : Nat) (r : Response), 1 ≤ w → answerOf (exec (.rdf o w) s) = some r → r.status = .ok →
    answerOf (exec (.wrf o w) (s.withVin r.vout))
      = some { status := .ok, vout := 0#256, wout := s.ports.reqWin }

/-- R55. -/
def Obligations.LastWriteWins : Prop :=
  ∀ (s : State) (o w : Nat) (v2 : Word) (r1 r2 : Response), 1 ≤ w →
    answerOf (exec (.wrf o w) s) = some r1 → r1.status = .ok →
    answerOf (exec (.wrf o w) (s.withVin v2)) = some r2 → r2.status = .ok →
    answerOf (exec (.wrf o w) ((s.withWords r1.wout).withVin v2)) = some r2
    ∧ answerOf (exec (.wrf o w) (s.withWords r1.wout)) = some r1

/-! ### Laws of the multi-word commands (spec/41_multiword.md R61 to R63) -/

/-- R61: the words a field lies in exist, and no command reads or writes a word at or above N. -/
def Obligations.FieldLiesInTwoWordsThatExist : Prop :=
  (∀ n o w : Nat, 1 ≤ w → w ≤ 256 → o + w ≤ n * 256 →
    wordIndex o ≤ n - 1 ∧ (straddles o w = true → wordIndex o + 1 ≤ n - 1))
  ∧ (∀ (i : Instr) (s : State) (r : Response) (ws : Words), i.wellFormed = true → answerOf (exec i s) = some r →
      (∀ k, k < i.wordCount → getWord ws k = getWord s.ports.reqWin k) →
      (∃ r', answerOf (exec i (s.withWords ws)) = some r' ∧ r'.status = r.status ∧ r'.vout = r.vout)
      ∧ ∀ k, i.wordCount ≤ k → getWord r.wout k = getWord s.ports.reqWin k)

/-- R62: once MWR's checks pass, the one or two WRFs that make it up succeed, and MWR's words are what they write; when
a check fails first, no word changes. -/
def Obligations.MwrIsMadeOfWrfs : Prop :=
  ∀ (s : State) (n o w : Nat), 1 ≤ n → n ≤ 16 → 1 ≤ w →
    (w ≤ 256 → o + w ≤ n * 256 → s.ports.reqVin.toNat < 2 ^ w →
      (o % 256 + w ≤ 256 →
        ∃ one r : Response,
          answerOf (exec (.wrf (o % 256) w)
            (s.withWords (s.ports.reqWin.setIfInBounds 0 (getWord s.ports.reqWin (o / 256))))) = some one
          ∧ answerOf (exec (.mwr n o w) s) = some r
          ∧ one.status = .ok ∧ r.status = .ok
          ∧ getWord r.wout (o / 256) = getWord one.wout 0
          ∧ ∀ j, j ≠ o / 256 → getWord r.wout j = getWord s.ports.reqWin j)
      ∧ (256 < o % 256 + w →
        ∃ lo hi r : Response,
          answerOf (exec (.wrf (o % 256) (256 - o % 256))
            ((s.withWords (s.ports.reqWin.setIfInBounds 0 (getWord s.ports.reqWin (o / 256)))).withVin
              (BitVec.ofNat 256 (s.ports.reqVin.toNat &&& (2 ^ (256 - o % 256) - 1))))) = some lo
          ∧ answerOf (exec (.wrf 0 (w - (256 - o % 256)))
            ((s.withWords (s.ports.reqWin.setIfInBounds 0 (getWord s.ports.reqWin (o / 256 + 1)))).withVin
              (BitVec.ofNat 256 (s.ports.reqVin.toNat >>> (256 - o % 256))))) = some hi
          ∧ answerOf (exec (.mwr n o w) s) = some r
          ∧ lo.status = .ok ∧ hi.status = .ok ∧ r.status = .ok
          ∧ getWord r.wout (o / 256) = getWord lo.wout 0
          ∧ getWord r.wout (o / 256 + 1) = getWord hi.wout 0
          ∧ ∀ j, j ≠ o / 256 → j ≠ o / 256 + 1 → getWord r.wout j = getWord s.ports.reqWin j))
    ∧ (256 < w ∨ n * 256 < o + w ∨ 2 ^ w ≤ s.ports.reqVin.toNat →
      ∃ r : Response, answerOf (exec (.mwr n o w) s) = some r ∧ r.status ≠ .ok ∧ r.wout = s.ports.reqWin)

/-- R63: with N = 1 the multi-word commands are the single-word ones; a read gives back what a write wrote; a write
changes no bit of C outside its field, and so no word but k and k+1. -/
def Obligations.MultiWordReductionAndRoundTrip : Prop :=
  (∀ (s : State) (o w : Nat), 1 ≤ w →
    answerOf (exec (.mrd 1 o w) s) = answerOf (exec (.rdf o w) s)
    ∧ answerOf (exec (.mwr 1 o w) s) = answerOf (exec (.wrf o w) s))
  ∧ (∀ (s : State) (n o w : Nat) (r : Response), 1 ≤ n → n ≤ 16 → 1 ≤ w →
    answerOf (exec (.mwr n o w) s) = some r → r.status = .ok →
    answerOf (exec (.mrd n o w) (s.withWords r.wout))
        = some { status := .ok, vout := s.ports.reqVin, wout := r.wout }
    ∧ (∀ a, (a < o ∨ o + w ≤ a) → (joined r.wout n).testBit a = (joined s.ports.reqWin n).testBit a)
    ∧ ∀ j, j ≠ o / 256 → j ≠ o / 256 + 1 → getWord r.wout j = getWord s.ports.reqWin j)

/-! ### Errors and STATUS (spec/60_exceptions.md, spec/30_encoding.md R42) -/

/-- R48 and R58: when a field does not fit, for every command, and what R48's check leaves. -/
def Obligations.FieldThatDoesNotFitIsTooManyBits : Prop :=
  ∀ (s : State) (n o w : Nat),
    (256 < o + w →
      exec (.rdf o w) s = .next (s.raise .tooManyBits) ∧ exec (.wrf o w) s = .next (s.raise .tooManyBits))
    ∧ (256 < w ∨ n * 256 < o + w →
      exec (.mrd n o w) s = .next (s.raise .tooManyBits) ∧ exec (.mwr n o w) s = .next (s.raise .tooManyBits))
    ∧ (1 ≤ w → o + w ≤ 256 → o ≤ 255 ∧ w ≤ 256 - o)

/-- R69, with the conditions of R66 to R68: the STATUS that an accepted command is answered with is the first error
that applies, and OK if none does. -/
def Obligations.StatusFollowsPriority : Prop :=
  ∀ s : State, s.Accepting → s.host.reads = .nothing →
    ∃ r : Response, step s = .next ((s.answer r).hostEdge (.accepted s.request))
      ∧ (¬ LegalWord s.ports.reqCmd → r.status = .illegalCommand)
      ∧ (LegalWord s.ports.reqCmd → FieldDoesNotFit s.ports.reqCmd → r.status = .tooManyBits)
      ∧ (LegalWord s.ports.reqCmd → ¬ FieldDoesNotFit s.ports.reqCmd →
          (opOf s.ports.reqCmd = 2 ∨ opOf s.ports.reqCmd = 4) →
          2 ^ widthOf s.ports.reqCmd ≤ s.ports.reqVin.toNat → r.status = .valueTooLarge)
      ∧ (LegalWord s.ports.reqCmd → ¬ FieldDoesNotFit s.ports.reqCmd →
          (opOf s.ports.reqCmd = 1 ∨ opOf s.ports.reqCmd = 3
            ∨ s.ports.reqVin.toNat < 2 ^ widthOf s.ports.reqCmd) → r.status = .ok)

/-- R64 and R70: an error answers STATUS with its code, VOUT with 0 and WOUT with WIN, and does nothing else; no
answer mixes a partial write with an error. -/
def Obligations.ErrorChangesNothing : Prop :=
  ∀ s : State, s.Accepting → s.host.reads = .nothing →
    ∃ r : Response, step s = .next ((s.answer r).hostEdge (.accepted s.request))
      ∧ (r.status ≠ .ok →
          r.vout = 0#256 ∧ r.wout = s.ports.reqWin
          ∧ ∃ e : Err, r.status = e.status ∧ s.answer r = s.raise e)

/-- R42: the codes, and that an accepted command is answered with 0, 3, 4 or 7 only. -/
def Obligations.StatusCodesProduced : Prop :=
  (Status.ok.code = 0#3 ∧ Status.emptyLayout.code = 1#3 ∧ Status.lengthMismatch.code = 2#3
    ∧ Status.tooManyBits.code = 3#3 ∧ Status.valueTooLarge.code = 4#3 ∧ Status.reserved5.code = 5#3
    ∧ Status.reserved6.code = 6#3 ∧ Status.illegalCommand.code = 7#3)
  ∧ ∀ s t : State, s.Accepting → step s = .next t →
      ∃ f, t.slot = some f
        ∧ (f.rsp.status.code = 0#3 ∨ f.rsp.status.code = 3#3 ∨ f.rsp.status.code = 4#3 ∨ f.rsp.status.code = 7#3)

/-! ### The machine (spec/10_state.md, spec/70_reset_and_hazards.md) -/

/-- R12: the result of a transaction is a function of its own operands: two accepted transactions with equal operands
leave equal slots, whatever the two hosts, their stores and their histories are, and whatever LATENCY is. -/
def Obligations.ResultDependsOnOperandsAlone : Prop :=
  ∀ (l1 l2 : Nat) (s1 s2 t1 t2 : State), s1.Accepting → s2.Accepting → s1.request = s2.request →
    edge l1 s1 = .next t1 → edge l2 s2 = .next t2 →
    t1.slot = t2.slot ∧ ∃ f, t1.slot = some f ∧ f.rsp = s1.request.response

/-- R35: commands come from the host's acts on `req_cmd` only: two machines that differ in the contents of any words
present the same command after the edge. -/
def Obligations.WordsNeverBecomeCommands : Prop :=
  ∀ (latency : Nat) (s1 s2 t1 t2 : State),
    s1.ports.rstN = s2.ports.rstN → s1.ports.reqValid = s2.ports.reqValid → s1.ports.reqCmd = s2.ports.reqCmd →
    s1.ports.rspReady = s2.ports.rspReady → s1.host.hold = s2.host.hold → s1.host.script = s2.host.script →
    s1.slot.map (·.waited) = s2.slot.map (·.waited) →
    edge latency s1 = .next t1 → edge latency s2 = .next t2 →
    t1.ports.reqCmd = t2.ports.reqCmd ∧ t1.ports.reqValid = t2.ports.reqValid

/-- R75: an edge with `rst_n = 0`. -/
def Obligations.ResetEmptiesTheSlot : Prop :=
  ∀ (latency : Nat) (s : State), s.ports.rstN = false →
    s.reqReady = false ∧ s.rspValid latency = false
    ∧ (s.host.reads = .nothing → ∃ t, edge latency s = .next t)
    ∧ ∀ t, edge latency s = .next t →
        t.slot = none ∧ t.host.issued = none ∧ t.host.taken = s.host.taken ∧ t.host.store = s.host.store
        ∧ t.rspValid latency = false ∧ (t.ports.rstN = true → t.reqReady = true)

/-- R76: when a transaction is accepted, what is sampled, what the response is computed from, and that later levels on
the request ports have no effect on it. -/
def Obligations.AcceptanceSamplesTheOperands : Prop :=
  ∀ (latency : Nat) (s : State),
    ((∃ q, s.event latency = .accepted q)
      ↔ s.ports.rstN = true ∧ s.ports.reqValid = true ∧ s.reqReady = true)
    ∧ (s.Accepting → s.host.reads = .nothing →
        ∃ t, edge latency s = .next t
          ∧ t.slot
            = some
              { rsp := Request.response
                  { cmd := s.ports.reqCmd, vin := s.ports.reqVin, win := s.ports.reqWin }
                waited := 1 })
    ∧ ∀ (f : InFlight) (p : Ports) (t : State), s.slot = some f → p.rstN = true →
        edge latency { s with ports := p } = .next t →
        (∃ g, t.slot = some g ∧ g.rsp = f.rsp)
        ∨ (t.slot = none ∧ State.event latency { s with ports := p } = .handedOver f.rsp)

/-- R77, for every LATENCY: not presented before LATENCY edges have passed and presented then, held stable until the
first edge with `rsp_ready = 1`, handed over at that edge, and nothing presented after it until another acceptance. -/
def Obligations.ResponsePresentedFromLatencyOn : Prop :=
  ∀ latency : Nat, 1 ≤ latency →
    (∀ (n : Nat) (s t : State) (q : Request), s.event latency = .accepted q →
      runAwake latency (n + 1) s = some t →
      (n + 1 < latency → t.rspValid latency = false ∧ t.slot.map (·.rsp) = some q.response)
      ∧ (n + 1 = latency → t.ports.rstN = true → t.presents latency = some q.response))
    ∧ (∀ (s t : State) (r : Response), s.presents latency = some r → edge latency s = .next t →
      (s.ports.rspReady = false → t.ports.rstN = true → t.presents latency = some r)
      ∧ (s.ports.rspReady = true →
          s.event latency = .handedOver r ∧ t.slot = none ∧ t.rspValid latency = false))
    ∧ ∀ s t : State, s.slot = none → (∀ q, s.event latency ≠ .accepted q) → edge latency s = .next t →
      t.slot = none ∧ t.rspValid latency = false

/-- R78: `req_ready`, and the order of responses over any run without a reset edge: what the host took, followed by
what is in flight, grows by the accepted transactions in acceptance order, none dropped or repeated, each with the
response to its own operands. -/
def Obligations.OneInFlightAnsweredInOrder : Prop :=
  (∀ s : State, s.reqReady = true ↔ s.ports.rstN = true ∧ s.slot = none)
  ∧ ∀ (latency : Nat) (n : Nat) (s t : State), 1 ≤ latency → s.Inv latency → runAwake latency n s = some t →
      t.host.taken ++ t.inFlight
        = s.host.taken ++ s.inFlight ++ (acceptedIn latency n s).map Request.transaction

/-- The response ports carry the presented response (R23, R77), have a value exactly while one is presented, and a host
that reads them without one stops the machine (the first half of R79). -/
def Obligations.OutputsHaveNoValueOutsideAResponse : Prop :=
  ∀ (latency : Nat) (s : State),
    (s.rspValid latency = false →
      s.rspStatus latency = none ∧ s.rspVout latency = none ∧ (∀ k, s.rspWout latency k = none)
      ∧ (s.host.reads ≠ .nothing → edge latency s = .fault .outputHasNoValue))
    ∧ ∀ r : Response, s.presents latency = some r →
        s.rspValid latency = true ∧ s.rspStatus latency = some r.status.code ∧ s.rspVout latency = some r.vout
        ∧ ∀ (k : Nat) (h : k < 16), s.rspWout latency k = some r.wout[k]

/-- A host that reads VOUT as a field value goes on only if STATUS is OK and the command was RDF or MRD (the duty of
R83; that the machine stops otherwise is the model's choice, log 7). -/
def Obligations.VoutIsReadAsAValueOnlyAfterARead : Prop :=
  ∀ (latency : Nat) (s : State) (r : Response) (q : Request), s.presents latency = some r →
    s.host.issued = some q → s.host.reads = .fieldValue →
    ((r.status = .ok ∧ LegalWord q.cmd ∧ (opOf q.cmd = 1 ∨ opOf q.cmd = 3)) → ∃ t, edge latency s = .next t)
    ∧ (¬ (r.status = .ok ∧ LegalWord q.cmd ∧ (opOf q.cmd = 1 ∨ opOf q.cmd = 3)) →
        edge latency s = .fault .voutIsNoFieldValue)

/-- No edge is refused, and none stops but by what the host reads: every command word, legal or not, in every state,
runs on. -/
def Obligations.OnlyHostReadsStopTheMachine : Prop :=
  ∀ (latency : Nat) (s : State),
    (∀ r, edge latency s ≠ .refused r)
    ∧ (s.host.reads = .nothing → ∃ t, edge latency s = .next t)

/-- In the model, the host's store changes at a handover edge only, to all sixteen words of WOUT, and only if the host
chooses to write back. R16 and R82 leave the store, and when and how it is written, to the host: the form of the host
(log 2), the edge (log 10) and that nothing else changes the store (log 22) are the model's choices. -/
def Obligations.StoreChangesOnlyByWriteBack : Prop :=
  ∀ (latency : Nat) (s t : State), edge latency s = .next t →
    (∀ r, s.event latency = .handedOver r → s.host.writesBack = true → t.host.store = r.wout)
    ∧ ((∀ r, s.event latency ≠ .handedOver r) ∨ s.host.writesBack = false → t.host.store = s.host.store)

/-- The reset values of spec/10_state.md section 5: the slot is empty, `req_ready` is 1, `rsp_valid` is 0 and the
response ports have no value. -/
def Obligations.StateAfterReset : Prop :=
  State.reset.slot = none ∧ State.reset.ports.rstN = true ∧ State.reset.reqReady = true
  ∧ ∀ latency, State.reset.rspValid latency = false ∧ State.reset.rspStatus latency = none
      ∧ State.reset.rspVout latency = none ∧ ∀ k, State.reset.rspWout latency k = none

/-- The invariant holds right after reset. -/
def Obligations.InvariantHoldsAtReset : Prop := ∀ latency, State.reset.Inv latency

/-- Every edge keeps the invariant: the slot answers the request in flight and no other, within LATENCY edges, and
everything the host ever took is the response to its own operands. -/
def Obligations.EveryEdgeKeepsTheInvariant : Prop :=
  ∀ (latency : Nat) (s t : State), 1 ≤ latency → s.Inv latency → edge latency s = .next t → t.Inv latency

/-- The write-back harness of R82 at the ports, for every LATENCY: presenting each command with the store's words and
writing WOUT back takes LATENCY + 1 edges a transaction, never stops, and gives the store and the responses of the
transaction-level harness. The script (log 2) and the write-back at the handover edge, before the next command's words
are taken from the store (log 10, 22), are the model's choices, and the count of edges rests on them. -/
def Obligations.HarnessAtThePorts : Prop :=
  ∀ (latency : Nat) (cs : List Issue) (s : State), 1 ≤ latency → s.AtStart → s.host.script = harnessScript cs →
    ∃ t : State,
      runAwake latency ((latency + 1) * cs.length + 1) s = some t
      ∧ t.host.store = (harness cs s.host.store).2
      ∧ t.host.taken = s.host.taken ++ (harness cs s.host.store).1
      ∧ t.slot = none

/-- With no valid request and nothing in flight, an edge does nothing to the FBA and hands nothing over, whatever
`rsp_ready` and the other request ports are (spec/93_implementation_defined.md U9). That the host's store is unchanged is
the model's choice (log 22). -/
def Obligations.NothingHappensWithoutAValidRequest : Prop :=
  ∀ (latency : Nat) (s : State) (p : Ports), s.slot = none → s.host.reads = .nothing → p.reqValid = false →
    ∃ t, edge latency { s with ports := p } = .next t
      ∧ t.slot = none ∧ t.host.taken = s.host.taken ∧ t.host.store = s.host.store

/-- R45's table: a line that can be encoded gives the word that decodes to its command, and its value on VIN (0 for a
read); any other line is refused. -/
def Obligations.LinesAssembleToTheirCommands : Prop :=
  ∀ l : Line,
    (l.instr.wellFormed = true → l.value < 2 ^ 256 →
      ∃ c : Issue, l.assemble = .ok c ∧ decode c.cmd = .ok l.instr ∧ c.vin.toNat = l.value)
    ∧ (l.instr.wellFormed = false ∨ 2 ^ 256 ≤ l.value → ∃ e, l.assemble = .error e)

/-- The round trip of a whole layout (spec/95_test_vectors.md S-RT, by the sequences of R45): writing every field of a
layout that fits from an all-zero word, and reading every field back, gives every value, and no command fails. -/
def Obligations.LayoutRoundTrip : Prop :=
  ∀ fs : List Field, (∀ f ∈ fs, 1 ≤ f.width ∧ f.value < 2 ^ f.width) → layoutBits fs ≤ 256 →
    (∀ t ∈ (harness (layoutWrites 0 fs) zeroWords).1, t.rsp.status = .ok)
    ∧ decodeLayout fs (encodeLayout fs)
        = fs.map fun f => { status := .ok, vout := BitVec.ofNat 256 f.value, wout := encodeLayout fs }
end

