-- ==== Sys2Proof/Laws/Bits.lean ====
section
/-! SUPPORT. The exact arithmetic bit by bit, and words of a vector. -/

namespace Sys2Proof.Machine

open Sys2Proof.Config

theorem mask_testBit (w b : Nat) : (mask w).testBit b = decide (b < w) := by
  simp [mask, Nat.testBit_two_pow_sub_one]

theorem notW_testBit {x : Nat} (h : x < 2 ^ 256) (b : Nat) :
    (notW x).testBit b = (decide (b < 256) && !x.testBit b) := by
  have : notW x = 2 ^ 256 - (x + 1) := by simp only [notW, W]; omega
  rw [this, Nat.testBit_two_pow_sub_succ h]

/-- The ones of a field that ends at or below bit 256 fit in a word. -/
theorem mask_shift_lt {o w : Nat} (h : o + w ≤ 256) : mask w <<< o < 2 ^ 256 := by
  have h1 : mask w < 2 ^ w := by simp [mask]
  calc mask w <<< o = mask w * 2 ^ o := Nat.shiftLeft_eq ..
    _ < 2 ^ w * 2 ^ o := by gcongr
    _ = 2 ^ (o + w) := by rw [← pow_add, Nat.add_comm]
    _ ≤ 2 ^ 256 := by gcongr; omega

/-- Bit b of a field read is bit o + b of the word, and 0 from the width up (spec/40_field_accessor.md R49). -/
theorem readField_testBit (x o w b : Nat) :
    (readField x o w).testBit b = (decide (b < w) && x.testBit (o + b)) := by
  simp only [readField, Nat.testBit_and, Nat.testBit_shiftRight, mask_testBit]
  rw [Bool.and_comm]

/-- Bit b of a word after a field write (spec/40_field_accessor.md R50). -/
theorem writeField_testBit {x o w v : Nat} (hx : x < 2 ^ 256) (h : o + w ≤ 256) (hv : v < 2 ^ w) (b : Nat) :
    (writeField x o w v).testBit b
      = if o ≤ b ∧ b < o + w then v.testBit (b - o) else x.testBit b := by
  have hhi : ∀ c, w ≤ c → v.testBit c = false := fun c hc =>
    Nat.testBit_lt_two_pow (lt_of_lt_of_le hv (Nat.pow_le_pow_right (by omega) hc))
  have hxhi : ∀ c, 256 ≤ c → x.testBit c = false := fun c hc =>
    Nat.testBit_lt_two_pow (lt_of_lt_of_le hx (Nat.pow_le_pow_right (by omega) hc))
  simp only [writeField, Nat.testBit_or, Nat.testBit_and, notW_testBit (mask_shift_lt h), Nat.testBit_shiftLeft,
    mask_testBit]
  by_cases h1 : o ≤ b
  · by_cases h2 : b < o + w
    · have : b - o < w := by omega
      simp [h1, h2, this]
    · have h3 : ¬ (b - o < w) := by omega
      have h4 := hhi (b - o) (by omega)
      by_cases h5 : b < 256
      · simp [h2, h3, h4, h5]
      · simp [h2, h4, hxhi b (by omega)]
  · have h5 : b < 256 ∨ x.testBit b = false := by
      by_cases h : b < 256
      · exact .inl h
      · exact .inr (hxhi b (by omega))
    rcases h5 with h5 | h5 <;> simp [h1, h5]

theorem readField_lt (x o w : Nat) : readField x o w < 2 ^ w :=
  Nat.lt_of_le_of_lt Nat.and_le_right (by simp [mask])

theorem writeField_lt {x o w v : Nat} (hx : x < 2 ^ 256) (h : o + w ≤ 256) (hv : v < 2 ^ w) :
    writeField x o w v < 2 ^ 256 := by
  apply Nat.lt_pow_two_of_testBit
  intro b hb
  rw [writeField_testBit hx h hv, if_neg (by omega)]
  exact Nat.testBit_lt_two_pow (lt_of_lt_of_le hx (Nat.pow_le_pow_right (by omega) hb))

theorem toWord_toNat {v : Nat} (h : v < 2 ^ 256) : (toWord v).toNat = v := by
  simpa [toWord] using h

theorem toWord_getLsbD (v b : Nat) : (toWord v).getLsbD b = (decide (b < 256) && v.testBit b) := by
  simp [toWord, BitVec.getLsbD_ofNat]

theorem getWord_putWord_same (ws : Words) {k : Nat} (h : k < 16) (x : Word) : getWord (putWord ws k x) k = x := by
  simp [getWord, putWord, h]

theorem getWord_putWord_other (ws : Words) {j k : Nat} (h : j ≠ k) (x : Word) :
    getWord (putWord ws k x) j = getWord ws j := by
  simp [getWord, putWord, h.symm]

/-- A word vector is its sixteen words. -/
theorem words_ext {a b : Words} (h : ∀ k, k < 16 → getWord a k = getWord b k) : a = b := by
  ext k hk
  have := h k hk
  simp only [getWord, Vector.getElem?_eq_getElem hk, Option.getD_some] at this
  rw [this]

theorem getWord_beyond (ws : Words) {k : Nat} (h : 16 ≤ k) : getWord ws k = 0#256 := by
  simp [getWord, Vector.getElem?_eq_none (xs := ws) (by omega)]

end Sys2Proof.Machine
end

