-- ==== Sys2Proof/Laws/State.lean ====
section
/-! SUPPORT. What each update of the state leaves in each field. -/

namespace Sys2Proof.Machine

variable (s : State)

@[simp] theorem answer_slot (r : Response) : (s.answer r).slot = some { rsp := r, waited := 1 } := rfl
@[simp] theorem answer_ports (r : Response) : (s.answer r).ports = s.ports := rfl
@[simp] theorem answer_host (r : Response) : (s.answer r).host = s.host := rfl

@[simp] theorem raise_slot (e : Err) :
    (s.raise e).slot = some { rsp := s.request.raise e, waited := 1 } := rfl
@[simp] theorem raise_ports (e : Err) : (s.raise e).ports = s.ports := rfl
@[simp] theorem raise_host (e : Err) : (s.raise e).host = s.host := rfl

@[simp] theorem emptySlot_slot : s.emptySlot.slot = none := rfl
@[simp] theorem emptySlot_ports : s.emptySlot.ports = s.ports := rfl
@[simp] theorem emptySlot_host : s.emptySlot.host = s.host := rfl

@[simp] theorem wait_slot : s.wait.slot = s.slot.map fun f => { f with waited := f.waited + 1 } := rfl
@[simp] theorem wait_ports : s.wait.ports = s.ports := rfl
@[simp] theorem wait_host : s.wait.host = s.host := rfl

@[simp] theorem play_slot (a : HostAct) : (s.play a).slot = s.slot := rfl
@[simp] theorem play_rstN (a : HostAct) : (s.play a).ports.rstN = a.rstN := rfl
@[simp] theorem play_reqValid (a : HostAct) : (s.play a).ports.reqValid = a.reqValid := rfl
@[simp] theorem play_reqCmd (a : HostAct) : (s.play a).ports.reqCmd = a.cmd := rfl
@[simp] theorem play_reqVin (a : HostAct) : (s.play a).ports.reqVin = a.vin := rfl
@[simp] theorem play_rspReady (a : HostAct) : (s.play a).ports.rspReady = a.rspReady := rfl
@[simp] theorem play_store (a : HostAct) : (s.play a).host.store = s.host.store := rfl
@[simp] theorem play_issued (a : HostAct) : (s.play a).host.issued = s.host.issued := rfl
@[simp] theorem play_taken (a : HostAct) : (s.play a).host.taken = s.host.taken := rfl
@[simp] theorem play_reads (a : HostAct) : (s.play a).host.reads = a.reads := rfl
@[simp] theorem play_writesBack (a : HostAct) : (s.play a).host.writesBack = a.writesBack := rfl
@[simp] theorem play_hold (a : HostAct) : (s.play a).host.hold = a.hold := rfl
@[simp] theorem play_script (a : HostAct) : (s.play a).host.script = s.host.script := rfl

@[simp] theorem rest_slot : s.rest.slot = s.slot := rfl
@[simp] theorem rest_rstN : s.rest.ports.rstN = true := rfl
@[simp] theorem rest_reqValid : s.rest.ports.reqValid = false := rfl
@[simp] theorem rest_reqCmd : s.rest.ports.reqCmd = s.ports.reqCmd := rfl
@[simp] theorem rest_reqVin : s.rest.ports.reqVin = s.ports.reqVin := rfl
@[simp] theorem rest_reqWin : s.rest.ports.reqWin = s.ports.reqWin := rfl
@[simp] theorem rest_rspReady : s.rest.ports.rspReady = false := rfl
@[simp] theorem rest_store : s.rest.host.store = s.host.store := rfl
@[simp] theorem rest_issued : s.rest.host.issued = s.host.issued := rfl
@[simp] theorem rest_taken : s.rest.host.taken = s.host.taken := rfl
@[simp] theorem rest_reads : s.rest.host.reads = .nothing := rfl
@[simp] theorem rest_writesBack : s.rest.host.writesBack = false := rfl
@[simp] theorem rest_hold : s.rest.host.hold = .oneEdge := rfl
@[simp] theorem rest_script : s.rest.host.script = s.host.script := rfl

@[simp] theorem present_slot (c : Command) : (s.present c).slot = none := rfl
@[simp] theorem present_rstN (c : Command) : (s.present c).ports.rstN = true := rfl
@[simp] theorem present_reqValid (c : Command) : (s.present c).ports.reqValid = true := rfl
@[simp] theorem present_reqCmd (c : Command) : (s.present c).ports.reqCmd = c := rfl
@[simp] theorem present_reqVin (c : Command) : (s.present c).ports.reqVin = s.ports.reqVin := rfl
@[simp] theorem present_reqWin (c : Command) : (s.present c).ports.reqWin = s.ports.reqWin := rfl
@[simp] theorem present_reads (c : Command) : (s.present c).host.reads = .nothing := rfl

@[simp] theorem request_cmd : s.request.cmd = s.ports.reqCmd := rfl
@[simp] theorem request_vin : s.request.vin = s.ports.reqVin := rfl
@[simp] theorem request_win : s.request.win = s.ports.reqWin := rfl

variable (h : HostAgent) (e : EdgeEvent)

@[simp] theorem learns_reads : (h.learns e).reads = h.reads := by cases e <;> rfl
@[simp] theorem learns_writesBack : (h.learns e).writesBack = h.writesBack := by cases e <;> rfl
@[simp] theorem learns_hold : (h.learns e).hold = h.hold := by cases e <;> rfl
@[simp] theorem learns_script : (h.learns e).script = h.script := by cases e <;> rfl

/-- The host's part of an edge leaves the slot alone. -/
@[simp] theorem hostEdge_slot : (s.hostEdge e).slot = s.slot := by
  unfold State.hostEdge; dsimp only; split <;> (try split) <;> rfl

/-- What the host has learned does not depend on what it does next. -/
@[simp] theorem hostEdge_store : (s.hostEdge e).host.store = (s.host.learns e).store := by
  unfold State.hostEdge; dsimp only; split <;> (try split) <;> rfl

@[simp] theorem hostEdge_issued : (s.hostEdge e).host.issued = (s.host.learns e).issued := by
  unfold State.hostEdge; dsimp only; split <;> (try split) <;> rfl

@[simp] theorem hostEdge_taken : (s.hostEdge e).host.taken = (s.host.learns e).taken := by
  unfold State.hostEdge; dsimp only; split <;> (try split) <;> rfl

end Sys2Proof.Machine
end

