-- ==== Sys2Proof/Laws/Commands.lean ====
section
/-! SUPPORT. What exec, accept and the shared operations answer. -/

namespace Sys2Proof.Machine

/-- Every command answers the response to its operands, and fills the slot only. -/
theorem exec_eq (i : Instr) (s : State) : exec i s = .next (s.answer (respondTo i s.request)) := by
  cases i <;> rfl

theorem answerOf_exec (i : Instr) (s : State) : answerOf (exec i s) = some (respondTo i s.request) := by
  rw [exec_eq]; rfl

/-- A command at its accepting edge is answered with the response to its operands, legal or not. -/
theorem accept_eq (s : State) : accept s = .next (s.answer s.request.response) := by
  unfold accept Request.response
  rw [request_cmd]
  cases decode s.ports.reqCmd with
  | ok i => exact exec_eq i s
  | error _ => rfl

theorem raise_status (q : Request) (e : Err) : (q.raise e).status = e.status := rfl
theorem raise_vout (q : Request) (e : Err) : (q.raise e).vout = 0#256 := rfl
theorem raise_wout (q : Request) (e : Err) : (q.raise e).wout = q.win := rfl
theorem respondValue_status (q : Request) (v : Nat) : (q.respondValue v).status = .ok := rfl
theorem respondValue_vout (q : Request) (v : Nat) : (q.respondValue v).vout = toWord v := rfl
theorem respondValue_wout (q : Request) (v : Nat) : (q.respondValue v).wout = q.win := rfl
theorem respondWords_status (ws : Words) : (respondWords ws).status = .ok := rfl
theorem respondWords_vout (ws : Words) : (respondWords ws).vout = 0#256 := rfl
theorem respondWords_wout (ws : Words) : (respondWords ws).wout = ws := rfl

theorem err_status_ne_ok (e : Err) : e.status ≠ .ok := by cases e <;> decide

theorem tooManySingle_iff (o w : Nat) : tooManySingle o w = true ↔ 256 < o + w := by simp [tooManySingle]

theorem tooManyMulti_iff (n o w : Nat) : tooManyMulti n o w = true ↔ 256 < w ∨ n * 256 < o + w := by
  simp [tooManyMulti]

theorem tooLarge_iff (v w : Nat) : tooLarge v w = true ↔ 2 ^ w ≤ v := by simp [tooLarge]

theorem straddles_iff (o w : Nat) : straddles o w = true ↔ 256 < o % 256 + w := decide_eq_true_iff

theorem word_lt (q : Request) (k : Nat) : q.word k < 2 ^ 256 := (getWord q.win k).isLt

theorem value_lt (q : Request) : q.value < 2 ^ 256 := q.vin.isLt

end Sys2Proof.Machine
end

