-- ==== Sys2Proof/Laws/Decode.lean ====
section
/-! SUPPORT. The fields the decoder slices are the fields by position, and what a decoded word looks like. -/

namespace Sys2Proof.Machine

/-- `x[hi:lo]` by division and remainder. -/
theorem slice_eq (x hi lo : Nat) : slice x hi lo = x / 2 ^ lo % 2 ^ (hi - lo + 1) := by
  simp [slice, mask, Nat.and_two_pow_sub_one_eq_mod, Nat.shiftRight_eq_div_pow]

theorem fieldOp_eq (c : Command) : fieldOp c = opOf c := by simp [fieldOp, opOf, slice_eq]

theorem fieldWidth_eq (c : Command) : fieldWidth c = widthOf c := by simp [fieldWidth, widthOf, slice_eq]

theorem fieldOffset_eq (c : Command) : fieldOffset c = offsetOf c := by simp [fieldOffset, offsetOf, slice_eq]

theorem fieldNwm1_eq (c : Command) : fieldNwm1 c = nwm1Of c := by simp [fieldNwm1, nwm1Of, slice_eq]

theorem fieldRsv_eq (c : Command) : fieldRsv c = rsvOf c := by
  have := c.isLt
  simp only [fieldRsv, rsvOf, slice_eq]
  omega

theorem opOf_lt (c : Command) : opOf c < 8 := Nat.mod_lt _ (by decide)

theorem widthOf_lt (c : Command) : widthOf c < 512 := Nat.mod_lt _ (by decide)

theorem offsetOf_lt (c : Command) : offsetOf c < 4096 := Nat.mod_lt _ (by decide)

theorem nwm1Of_lt (c : Command) : nwm1Of c < 16 := Nat.mod_lt _ (by decide)

/-- A command word is the sum of its fields. -/
theorem command_toNat (c : Command) :
    c.toNat = rsvOf c * 2 ^ 28 + nwm1Of c * 2 ^ 24 + offsetOf c * 2 ^ 12 + widthOf c * 2 ^ 3 + opOf c := by
  simp only [rsvOf, nwm1Of, offsetOf, widthOf, opOf]
  omega

/-- The decoder in terms of the fields by position. -/
theorem decode_eq (c : Command) :
    decode c =
      if rsvOf c ≠ 0 then .error .reservedBits
      else if opOf c = 0 ∨ 4 < opOf c then .error .reservedOpcode
      else if widthOf c = 0 then .error .zeroWidth
      else if opOf c = 3 then .ok (.mrd (nwm1Of c + 1) (offsetOf c) (widthOf c))
      else if opOf c = 4 then .ok (.mwr (nwm1Of c + 1) (offsetOf c) (widthOf c))
      else if nwm1Of c ≠ 0 then .error .wordCountOnSingle
      else if opOf c = 1 then .ok (.rdf (offsetOf c) (widthOf c))
      else .ok (.wrf (offsetOf c) (widthOf c)) := by
  simp only [decode, fieldOp_eq, fieldWidth_eq, fieldOffset_eq, fieldNwm1_eq, fieldRsv_eq]

/-- Everything a successful decoding says about the word: one of four cases. -/
theorem decode_ok_cases {c : Command} {i : Instr} (h : decode c = .ok i) :
    rsvOf c = 0 ∧ widthOf c ≠ 0 ∧
      ((opOf c = 1 ∧ nwm1Of c = 0 ∧ i = .rdf (offsetOf c) (widthOf c))
      ∨ (opOf c = 2 ∧ nwm1Of c = 0 ∧ i = .wrf (offsetOf c) (widthOf c))
      ∨ (opOf c = 3 ∧ i = .mrd (nwm1Of c + 1) (offsetOf c) (widthOf c))
      ∨ (opOf c = 4 ∧ i = .mwr (nwm1Of c + 1) (offsetOf c) (widthOf c))) := by
  rw [decode_eq] at h
  have := opOf_lt c
  split_ifs at h with h1 h2 h3 h4 h5 h6 h7 <;> cases h <;> refine ⟨by omega, h3, ?_⟩
  · exact .inr (.inr (.inl ⟨h4, rfl⟩))
  · exact .inr (.inr (.inr ⟨h5, rfl⟩))
  · exact .inl ⟨h7, by omega, rfl⟩
  · exact .inr (.inl ⟨by omega, by omega, rfl⟩)

/-- `legal` is R40's condition on the fields by position. -/
theorem legal_iff (c : Command) : legal c = true ↔ LegalWord c := by
  simp only [legal, LegalWord, fieldOp_eq, fieldWidth_eq, fieldNwm1_eq, fieldRsv_eq]
  simp
  tauto

end Sys2Proof.Machine
end

