-- ==== Sys2Proof/Laws/Edge.lean ====
section
/-! SUPPORT. What an edge can do: the event's cases, and the one lemma from which every claim about an edge follows. -/

namespace Sys2Proof.Machine

/-- The FBA's part of an edge never stops, and this is the state it leaves. -/
def afterEvent (e : EdgeEvent) (s : State) : State :=
  match e with
  | .reset => s.emptySlot
  | .accepted _ => s.answer s.request.response
  | .handedOver _ => s.emptySlot
  | .waiting => s.wait
  | .presented => s
  | .idle => s

theorem fbaEdge_eq (e : EdgeEvent) (s : State) : fbaEdge e s = .next (afterEvent e s) := by
  cases e <;> first | rfl | exact accept_eq s

/-- An edge in one line: it stops by what the host reads, or goes on. -/
theorem edge_eq (latency : Nat) (s : State) :
    edge latency s =
      match s.readFault latency with
      | some f => .fault f
      | none => .next ((afterEvent (s.event latency) s).hostEdge (s.event latency)) := by
  unfold edge
  cases s.readFault latency with
  | some f => rfl
  | none => simp only [fbaEdge_eq]

/-- All that is known when an edge goes on. -/
theorem edge_next {latency : Nat} {s t : State} (h : edge latency s = .next t) :
    s.readFault latency = none ∧ t = (afterEvent (s.event latency) s).hostEdge (s.event latency) := by
  rw [edge_eq] at h
  cases hf : s.readFault latency with
  | some f => rw [hf] at h; cases h
  | none => rw [hf] at h; cases h; exact ⟨rfl, rfl⟩

theorem edge_of_readFault_none {latency : Nat} {s : State} (h : s.readFault latency = none) :
    edge latency s = .next ((afterEvent (s.event latency) s).hostEdge (s.event latency)) := by
  rw [edge_eq, h]

theorem readFault_of_reads_nothing {latency : Nat} {s : State} (h : s.host.reads = .nothing) :
    s.readFault latency = none := by
  simp [State.readFault, h]

@[simp] theorem afterEvent_ports (e : EdgeEvent) (s : State) : (afterEvent e s).ports = s.ports := by cases e <;> rfl

@[simp] theorem afterEvent_host (e : EdgeEvent) (s : State) : (afterEvent e s).host = s.host := by cases e <;> rfl

theorem event_of_accepting {latency : Nat} {s : State} (h : s.Accepting) :
    s.event latency = .accepted s.request := by
  simp [State.event, h.1, h.2.1, h.2.2]

/-- The cases of an edge's event, each with what it says of the state. -/
theorem event_cases (latency : Nat) (s : State) :
    (s.event latency = .reset ∧ s.ports.rstN = false)
    ∨ (s.event latency = .accepted s.request ∧ s.Accepting)
    ∨ (s.event latency = .idle ∧ s.ports.rstN = true ∧ s.slot = none ∧ s.ports.reqValid = false)
    ∨ (∃ f, s.slot = some f ∧ s.ports.rstN = true ∧
        ((s.event latency = .waiting ∧ f.waited < latency)
        ∨ (s.event latency = .presented ∧ latency ≤ f.waited ∧ s.ports.rspReady = false)
        ∨ (s.event latency = .handedOver f.rsp ∧ latency ≤ f.waited ∧ s.ports.rspReady = true))) := by
  unfold State.event State.Accepting
  cases hr : s.ports.rstN <;> cases hs : s.slot with
  | none => cases hv : s.ports.reqValid <;> simp
  | some f => by_cases hl : latency ≤ f.waited <;> cases hp : s.ports.rspReady <;> simp [hl] <;> omega

theorem presents_eq_some {latency : Nat} {s : State} {r : Response} :
    s.presents latency = some r ↔
      s.ports.rstN = true ∧ ∃ f, s.slot = some f ∧ latency ≤ f.waited ∧ f.rsp = r := by
  unfold State.presents
  cases s.ports.rstN <;> cases s.slot <;> simp

end Sys2Proof.Machine
end

