-- ==== Sys2Proof/Laws/Fields.lean ====
section
/-! SUPPORT. The bit-offset space and the joined words bit by bit, and one lemma per command: its response, with the
checks as propositions. -/

namespace Sys2Proof.Machine

theorem offsetBit_putWord (ws : Words) {k : Nat} (hk : k < 16) (x : Word) (a : Nat) :
    offsetBit (putWord ws k x) a = if a / 256 = k then x.getLsbD (a % 256) else offsetBit ws a := by
  unfold offsetBit
  split
  case isTrue h => rw [h, getWord_putWord_same _ hk]
  case isFalse h => rw [getWord_putWord_other _ h]

/-- Bit b of word k is offset k * 256 + b (spec/20_memory.md R26). -/
theorem word_testBit (q : Request) {k b : Nat} (hb : b < 256) :
    (q.word k).testBit b = offsetBit q.win (k * 256 + b) := by
  unfold offsetBit
  rw [show (k * 256 + b) / 256 = k by omega, show (k * 256 + b) % 256 = b by omega]
  rfl

theorem joined_lt (ws : Words) (n : Nat) : joined ws n < 2 ^ (n * 256) := by
  induction n with
  | zero => simp [joined]
  | succ n ih =>
    have h := (getWord ws n).isLt
    have hle : (getWord ws n).toNat * 2 ^ (n * 256) ≤ (2 ^ 256 - 1) * 2 ^ (n * 256) :=
      Nat.mul_le_mul_right _ (by omega)
    have e : (2 : Nat) ^ ((n + 1) * 256) = (2 ^ 256 - 1) * 2 ^ (n * 256) + 2 ^ (n * 256) := by
      rw [show (n + 1) * 256 = 256 + n * 256 by ring, pow_add]
      generalize 2 ^ (n * 256) = y
      omega
    simp only [joined, e]
    omega

/-- The joined words are the bit-offset space (spec/41_multiword.md R59; spec/20_memory.md R26). -/
theorem joined_testBit (ws : Words) (n a : Nat) :
    (joined ws n).testBit a = (decide (a < n * 256) && offsetBit ws a) := by
  induction n with
  | zero => simp [joined]
  | succ n ih =>
    rw [joined, Nat.add_comm, ← Nat.shiftLeft_eq, Nat.shiftLeft_add_eq_or_of_lt (joined_lt ws n), Nat.testBit_or, ih,
      Nat.testBit_shiftLeft]
    have hbit : ∀ b, (getWord ws n).toNat.testBit b = (getWord ws n).getLsbD b := fun _ => rfl
    rw [hbit]
    unfold offsetBit
    by_cases h1 : a < n * 256
    · have h2 : a < (n + 1) * 256 := Nat.lt_of_lt_of_le h1 (Nat.mul_le_mul_right _ (Nat.le_succ n))
      simp [h1, h2]
    · by_cases h2 : a < (n + 1) * 256
      · have e1 : a / 256 = n := by omega
        have e2 : a % 256 = a - n * 256 := by omega
        have h3 : n * 256 ≤ a := by omega
        simp [h1, h2, h3, e1, e2]
      · have hge : 256 ≤ a - n * 256 := by omega
        have h4 : (getWord ws n).getLsbD (a - n * 256) = false := BitVec.getLsbD_of_ge _ _ hge
        simp [h1, h2, h4]

/-- A straddling read is the bits of its field (spec/41_multiword.md R57, R59). -/
theorem readStraddling_testBit {o w : Nat} (q : Request) (hw : w ≤ 256) (h : 256 < o % 256 + w) (b : Nat) :
    (readStraddling q o w).testBit b = (decide (b < w) && offsetBit q.win (o + b)) := by
  simp only [readStraddling, Nat.testBit_or, readField_testBit, Nat.testBit_shiftLeft, lowWidth, highWidth,
    localOffset, wordIndex, Config.W]
  by_cases h1 : b < 256 - o % 256
  · rw [word_testBit _ (by omega)]
    have h2 : ¬ 256 - o % 256 ≤ b := by omega
    have h3 : b < w := by omega
    have e : o / 256 * 256 + (o % 256 + b) = o + b := by omega
    simp [h1, h2, h3, e]
  · by_cases h2 : b < w
    · rw [word_testBit q (k := o / 256 + 1) (b := 0 + (b - (256 - o % 256))) (by omega)]
      have h3 : 256 - o % 256 ≤ b := by omega
      have h4 : b - (256 - o % 256) < w - (256 - o % 256) := by omega
      have e : (o / 256 + 1) * 256 + (0 + (b - (256 - o % 256))) = o + b := by omega
      rw [e]
      simp [h1, h2, h3, h4]
    · have h3 : ¬ b - (256 - o % 256) < w - (256 - o % 256) := by omega
      simp [h1, h2, h3]

theorem lowPart_lt (v m : Nat) : v &&& mask m < 2 ^ m :=
  Nat.lt_of_le_of_lt Nat.and_le_right (by simp [mask])

/-- The high part of a value fits its part of the field (spec/41_multiword.md R62). -/
theorem highPart_lt {v w m : Nat} (hv : v < 2 ^ w) (h : m ≤ w) : v >>> m < 2 ^ (w - m) := by
  rw [Nat.shiftRight_eq_div_pow, Nat.div_lt_iff_lt_mul (by positivity), ← pow_add]
  rwa [show w - m + m = w by omega]

/-- RDF (spec/40_field_accessor.md R48, R49). -/
theorem rdf_eq (o w : Nat) (q : Request) :
    rdf o w q =
      if 256 < o + w then q.raise .tooManyBits else q.respondValue (readField (q.word 0) o w) := by
  simp only [rdf, tooManySingle_iff]

/-- WRF (spec/40_field_accessor.md R48, R50). -/
theorem wrf_eq (o w : Nat) (q : Request) :
    wrf o w q =
      if 256 < o + w then q.raise .tooManyBits
      else if 2 ^ w ≤ q.value then q.raise .valueTooLarge
      else respondWords (putWord q.win 0 (toWord (writeField (q.word 0) o w q.value))) := by
  simp only [wrf, tooManySingle_iff, tooLarge_iff]

/-- MRD (spec/41_multiword.md R57 to R59). -/
theorem mrd_eq (n o w : Nat) (q : Request) :
    mrd n o w q =
      if 256 < w ∨ n * 256 < o + w then q.raise .tooManyBits
      else if 256 < o % 256 + w then q.respondValue (readStraddling q o w)
      else q.respondValue (readField (q.word (o / 256)) (o % 256) w) := by
  simp only [mrd, tooManyMulti_iff, straddles_iff, wordIndex, localOffset]

/-- MWR (spec/41_multiword.md R57, R58, R60). -/
theorem mwr_eq (n o w : Nat) (q : Request) :
    mwr n o w q =
      if 256 < w ∨ n * 256 < o + w then q.raise .tooManyBits
      else if 2 ^ w ≤ q.value then q.raise .valueTooLarge
      else if 256 < o % 256 + w then respondWords (writeStraddling q o w)
      else respondWords
        (putWord q.win (o / 256) (toWord (writeField (q.word (o / 256)) (o % 256) w q.value))) := by
  simp only [mwr, tooManyMulti_iff, tooLarge_iff, straddles_iff, wordIndex, localOffset]

end Sys2Proof.Machine
end

