-- ==== Sys2Proof/Laws/PerInstr.lean ====
section
/-! SUPPORT. Per command: the encoding of a well-formed command is a legal word (spec/30_encoding.md R40, R44). -/

namespace Sys2Proof.Laws.EncodedIsLegal

open Sys2Proof.Machine

/-- An encoding whose fields are in range has those fields. -/
theorem fields_of_encodeFields {op w o nwm1 : Nat} (hop : op < 8) (hw : w < 512) (ho : o < 4096) (hn : nwm1 < 16) :
    opOf (encodeFields op w o nwm1) = op ∧ widthOf (encodeFields op w o nwm1) = w
      ∧ offsetOf (encodeFields op w o nwm1) = o ∧ nwm1Of (encodeFields op w o nwm1) = nwm1
      ∧ rsvOf (encodeFields op w o nwm1) = 0 := by
  have h : (encodeFields op w o nwm1).toNat = nwm1 * 2 ^ 24 + (o * 2 ^ 12 + (w * 2 ^ 3 + op)) := by
    simp only [encodeFields, BitVec.toNat_ofNat, Nat.lor_assoc]
    rw [← Nat.shiftLeft_add_eq_or_of_lt (i := 3) hop,
      ← Nat.shiftLeft_add_eq_or_of_lt (i := 12) (by rw [Nat.shiftLeft_eq]; omega),
      ← Nat.shiftLeft_add_eq_or_of_lt (i := 24) (by simp only [Nat.shiftLeft_eq]; omega)]
    simp only [Nat.shiftLeft_eq]
    omega
  simp only [opOf, widthOf, offsetOf, nwm1Of, rsvOf, h]
  omega

/-- The encoding of a well-formed command is legal. -/
def Statement (i : Instr) : Prop := i.wellFormed = true → LegalWord (encode i)

theorem rdf (o w : Nat) : Statement (.rdf o w) := by
  intro h
  simp [Instr.wellFormed, Instr.offsetOk, Instr.widthOk] at h
  obtain ⟨h1, h2, h3, h4, h5⟩ := fields_of_encodeFields (op := 1) (w := w) (o := o) (nwm1 := 0) (by omega) (by omega) (by omega) (by omega)
  simp only [LegalWord, encode]
  omega

theorem wrf (o w : Nat) : Statement (.wrf o w) := by
  intro h
  simp [Instr.wellFormed, Instr.offsetOk, Instr.widthOk] at h
  obtain ⟨h1, h2, h3, h4, h5⟩ := fields_of_encodeFields (op := 2) (w := w) (o := o) (nwm1 := 0) (by omega) (by omega) (by omega) (by omega)
  simp only [LegalWord, encode]
  omega

theorem mrd (n o w : Nat) : Statement (.mrd n o w) := by
  intro h
  simp [Instr.wellFormed, Instr.offsetOk, Instr.widthOk, Instr.wordCountOk, Config.maxWords] at h
  obtain ⟨h1, h2, h3, h4, h5⟩ := fields_of_encodeFields (op := 3) (w := w) (o := o) (nwm1 := n - 1) (by omega) (by omega) (by omega)
    (by omega)
  simp only [LegalWord, encode]
  omega

theorem mwr (n o w : Nat) : Statement (.mwr n o w) := by
  intro h
  simp [Instr.wellFormed, Instr.offsetOk, Instr.widthOk, Instr.wordCountOk, Config.maxWords] at h
  obtain ⟨h1, h2, h3, h4, h5⟩ := fields_of_encodeFields (op := 4) (w := w) (o := o) (nwm1 := n - 1) (by omega) (by omega) (by omega)
    (by omega)
  simp only [LegalWord, encode]
  omega

end Sys2Proof.Laws.EncodedIsLegal
end

