-- ==== Sys2Proof/Tests/Slice0.lean ====
section
/-! SUPPORT. The model's own tests, with expected results from spec/95_test_vectors.md or from the spec's worked
examples, and a witness for every obligation that has hypotheses. -/

namespace Sys2Proof.Tests

open Sys2Proof.Machine

/-! ### Small states (the constants are spec/95_test_vectors.md's) -/

def X : Word := 0x0123456789abcdeffedcba98765432100f1e2d3c4b5a69788796a5b4c3d2e1f0#256
def Y : Word := 0x00112233445566778899aabbccddeeff102132435465768798a9bacbdcedfe0f#256

/-- Words 0 and 1, all others 0. -/
def words (w0 w1 : Word) : Words := putWord (putWord zeroWords 0 w0) 1 w1

/-- The state after reset with a value and words on the request ports. -/
def given (vin : Word) (win : Words) : State :=
  { State.reset with ports := { Ports.reset with reqVin := vin, reqWin := win } }

/-- The response to a command word, by one step of the machine. -/
def answer (cmd : Nat) (vin : Word) (win : Words) : Option Response :=
  answerOf (step ((given vin win).withFetchWord 32 cmd))

/-- A state in which `q` has been in flight for `waited` edges. -/
def flying (q : Request) (waited : Nat) (ready : Bool) (reads : HostRead) : State :=
  { slot := some { rsp := q.response, waited := waited }
    ports := { Ports.reset with rspReady := ready }
    host := { HostAgent.reset with issued := some q, reads := reads, writesBack := true } }

/-- A state with `rst_n = 0`. -/
def inReset (s : State) : State := { s with ports := { s.ports with rstN := false } }

/-- The state an outcome goes on in. -/
def nextOf (o : Host.Outcome State Fault Refusal) : Option State :=
  match o with
  | .next t => some t
  | .fault _ => none
  | .refused _ => none

/-- What an outcome stops with. -/
def faultOf (o : Host.Outcome State Fault Refusal) : Option Fault :=
  match o with
  | .next _ => none
  | .fault f => some f
  | .refused _ => none

/-- A read (V-RDF-7), a write (V-WRF-12) and a failing read (V-RDF-10). -/
def aRead : Request := { cmd := 0x000c81c1#32, vin := 0#256, win := words X 0 }
def aWrite : Request := { cmd := 0x00064322#32, vin := 0#256, win := words X Y }
def anError : Request := { cmd := 0x000c81c9#32, vin := 0#256, win := words X 0 }

/-! ### WellFormed refuses each ill-formed field (spec/30_encoding.md R44) -/

theorem test_width_zero_refused : (Instr.rdf 0 0).wellFormed = false := by decide
theorem test_width_512_refused : (Instr.wrf 0 512).wellFormed = false := by decide
theorem test_offset_4096_refused : (Instr.mrd 16 4096 1).wellFormed = false := by decide
theorem test_word_count_0_refused : (Instr.mrd 0 0 1).wellFormed = false := by decide
theorem test_word_count_17_refused : (Instr.mwr 17 0 1).wellFormed = false := by decide

/-! ### Decoding (spec/95_test_vectors.md part 2, and words laid out bit by bit from spec/30_encoding.md R36) -/

theorem test_decode_rdf_bits :
    decode 0b0000_0000_000000000100_000001000_001#32 = .ok (.rdf 4 8) := by decide
theorem test_decode_wrf_bits :
    decode 0b0000_0000_000000001000_010100000_010#32 = .ok (.wrf 8 160) := by decide
theorem test_decode_mrd_bits :
    decode 0b0000_1111_111111111111_000000001_011#32 = .ok (.mrd 16 4095 1) := by decide
theorem test_decode_mwr_bits :
    decode 0b0000_0001_000011111010_010100000_100#32 = .ok (.mwr 2 250 160) := by decide

theorem test_decode_legal_vectors :
    [0x00000041, 0x00004041, 0x00008502, 0x010fa504, 0x010fa503, 0x0ffff00b, 0x0f000043, 0x00000ff9, 0x00fff801].map
        (fun c => (decode (BitVec.ofNat 32 c)).toOption)
      = [some (.rdf 0 8), some (.rdf 4 8), some (.wrf 8 160), some (.mwr 2 250 160), some (.mrd 2 250 160),
          some (.mrd 16 4095 1), some (.mrd 16 0 8), some (.rdf 0 511), some (.rdf 4095 256)] := by decide

theorem test_decode_illegal_vectors :
    [0x00000000, 0x0f000041, 0x00000045, 0x00000046, 0x00000047, 0x00000040, 0x00000001, 0x00000003, 0x10000041,
        0x80000044, 0xffffffff].all (fun c => (decode (BitVec.ofNat 32 c)).toOption.isNone) = true := by decide

theorem test_decodeTableWord : decodeTableWord 32 0x00008042 = some (.wrf 8 8) := by decide
theorem test_encode_examples :
    [encode (.rdf 0 8), encode (.wrf 8 160), encode (.mwr 2 250 160)] = [0x00000041#32, 0x00008502#32, 0x010FA504#32] := by
  decide

/-! ### One step of each command (spec/95_test_vectors.md part 3) -/

/-- V-RDF-7. -/
theorem test_rdf_up_to_the_top_bit :
    answer 0x000c81c1 0#256 (words X 0) = some { status := .ok, vout := 0x123456789abcd#256, wout := words X 0 } := by
  decide
/-- V-RDF-10. -/
theorem test_rdf_one_bit_too_far :
    answer 0x000c81c9 0#256 (words X 0) = some { status := .tooManyBits, vout := 0#256, wout := words X 0 } := by decide
/-- V-WRF-12. -/
theorem test_wrf_keeps_the_other_bits :
    answer 0x00064322 0#256 (words X Y)
      = some
        { status := .ok, vout := 0#256
          wout := words 0x0123456789abcd0000000000000000000000000c4b5a69788796a5b4c3d2e1f0#256 Y } := by decide
/-- V-WRF-11: both checks fail. -/
theorem test_wrf_too_many_bits_wins :
    answer 0x000fa03a 0xc8#256 (words X 0) = some { status := .tooManyBits, vout := 0#256, wout := words X 0 } := by decide
/-- V-MRD-7. -/
theorem test_mrd_straddling_whole_word :
    answer 0x01080803 0#256 (words X Y)
      = some
        { status := .ok, vout := 0x102132435465768798a9bacbdcedfe0f0123456789abcdeffedcba9876543210#256
          wout := words X Y } := by decide
/-- V-MRD-14. -/
theorem test_mrd_wider_than_a_word :
    answer 0x0100080b 0#256 (words X Y) = some { status := .tooManyBits, vout := 0#256, wout := words X Y } := by decide
/-- V-MWR-1. -/
theorem test_mwr_straddling :
    answer 0x010fc044 0xab#256 (words X Y)
      = some
        { status := .ok, vout := 0#256
          wout := words 0xb123456789abcdeffedcba98765432100f1e2d3c4b5a69788796a5b4c3d2e1f0#256
            0x00112233445566778899aabbccddeeff102132435465768798a9bacbdcedfe0a#256 } := by decide
/-- Scenario C's field (spec/95_test_vectors.md P3 step 2): the value 2^160 is too large. -/
theorem test_mwr_value_too_large :
    answer 0x010fa504 (1#256 <<< 160) (words X Y)
      = some { status := .valueTooLarge, vout := 0#256, wout := words X Y } := by decide
/-- V-RDF-16. -/
theorem test_illegal_command_answered :
    answer 0x10000041 0#256 (words X 0) = some { status := .illegalCommand, vout := 0#256, wout := words X 0 } := by decide

/-! ### The edges around a command (spec/70_reset_and_hazards.md R75 to R83) -/

theorem test_reset_empties_the_slot :
    ((nextOf (edge 2 (inReset (flying aRead 1 true .nothing)))).map fun t => (t.slot, t.host.taken)) = some (none, []) := by
  decide
theorem test_waiting_counts :
    ((nextOf (edge 2 (flying aRead 1 true .nothing))).map fun t => t.slot.map (·.waited)) = some (some 2) := by decide
theorem test_handover_writes_back :
    ((nextOf (edge 1 (flying aWrite 1 true .nothing))).map fun t => (t.slot, t.host.store))
      = some (none, words 0x0123456789abcd0000000000000000000000000c4b5a69788796a5b4c3d2e1f0#256 Y) := by decide
theorem test_read_of_no_value_faults : faultOf (edge 2 (flying aRead 1 true .outputs)) = some .outputHasNoValue := by decide
theorem test_error_is_no_field_value :
    faultOf (edge 1 (flying anError 1 true .fieldValue)) = some .voutIsNoFieldValue := by decide
/-- spec/30_encoding.md R45's table and R44's example. -/
theorem test_assemble_line :
    (assembleText "mwr 2, 250, 0xA0, 7".toList).toOption = some { cmd := 0x010FA504#32, vin := 7#256 } := by decide
theorem test_assemble_refuses_width_512 : (assembleText "rdf 0, 512".toList).toOption = none := by decide

/-! ### Witnesses of the obligations' hypotheses -/

theorem witness_EncodeThenDecode :
    (Instr.rdf 0 1).wellFormed = true ∧ (Instr.rdf 4095 511).wellFormed = true ∧ (Instr.wrf 4095 511).wellFormed = true
      ∧ (Instr.mrd 1 0 1).wellFormed = true ∧ (Instr.mrd 16 4095 511).wellFormed = true
      ∧ (Instr.mwr 16 4095 511).wellFormed = true := by decide

/-- Also DecodeThenEncode's, WordCountAndCapacity's and PresentedWordRunsNext's. -/
theorem witness_decoded :
    decode 0x000ff009#32 = .ok (.rdf 255 1) ∧ decode 0x000ff00a#32 = .ok (.wrf 255 1)
      ∧ decode 0x0ffff00b#32 = .ok (.mrd 16 4095 1) ∧ decode 0x00000804#32 = .ok (.mwr 1 0 256) := by decide

theorem witness_DecodeReadsTheFields :
    (LegalWord 0x00fffff9#32 ∧ opOf 0x00fffff9#32 = 1) ∧ (LegalWord 0x0000000a#32 ∧ opOf 0x0000000a#32 = 2)
      ∧ (LegalWord 0x0ffffffb#32 ∧ opOf 0x0ffffffb#32 = 3) ∧ (LegalWord 0x0000000c#32 ∧ opOf 0x0000000c#32 = 4)
      ∧ ¬ LegalWord 0x01000041#32 ∧ ¬ LegalWord 0x10000041#32 ∧ ¬ LegalWord 0x00000004#32
      ∧ ¬ LegalWord 0x00000045#32 := by
  unfold LegalWord
  refine ⟨?_, ?_, ?_, ?_, ?_, ?_, ?_, ?_⟩ <;> decide

/-- An accepting state whose host reads nothing, with a legal command and with an illegal one; also
AcceptanceSamplesTheOperands's, ErrorChangesNothing's and StatusCodesProduced's. -/
theorem witness_StepRunsDecodedCommand :
    ((given 0#256 (words X 0)).present 0x000c81c1#32).Accepting
      ∧ ((given 0#256 (words X 0)).present 0x000c81c1#32).host.reads = .nothing
      ∧ decode ((given 0#256 (words X 0)).present 0x000c81c1#32).ports.reqCmd = .ok (.rdf 200 56) := by
  unfold State.Accepting; decide

theorem witness_IllegalCommandAnswered :
    (((given 0#256 (words X 0)).present 0x000c81c1#32).Accepting ∧ LegalWord 0x000c81c1#32)
      ∧ ((given 0#256 (words X 0)).present 0x10000041#32).Accepting ∧ ¬ LegalWord 0x10000041#32 := by
  unfold State.Accepting LegalWord; decide

/-- The field that just fits and the one that just does not; also FieldThatDoesNotFitIsTooManyBits's. -/
theorem witness_RdfReadsField : (1 ≤ 56 ∧ 200 + 56 ≤ 256) ∧ (1 ≤ 57 ∧ 256 < 200 + 57) := by decide

/-- The value that just fits and the one that just does not. -/
theorem witness_WrfWritesField :
    (1 ≤ 8 ∧ 248 + 8 ≤ 256 ∧ (given 0xff#256 zeroWords).ports.reqVin.toNat < 2 ^ 8)
      ∧ (1 ≤ 8 ∧ 248 + 8 ≤ 256 ∧ 2 ^ 8 ≤ (given 0x100#256 zeroWords).ports.reqVin.toNat)
      ∧ (1 ≤ 7 ∧ 256 < 250 + 7) := by decide

/-- A field that ends at a word's top bit, one that straddles by one bit, one that ends at the capacity, and the two
ways not to fit. -/
theorem witness_MrdReadsField :
    (1 ≤ 2 ∧ 2 ≤ 16 ∧ 8 ≤ 256 ∧ 248 + 8 ≤ 2 * 256 ∧ 248 % 256 + 8 ≤ 256)
      ∧ (8 ≤ 256 ∧ 249 + 8 ≤ 2 * 256 ∧ 256 < 249 % 256 + 8)
      ∧ (12 ≤ 256 ∧ 500 + 12 ≤ 2 * 256) ∧ (2 * 256 < 501 + 12) ∧ (256 < 257) := by decide

/-- Also MwrIsMadeOfWrfs's. -/
theorem witness_MwrWritesField :
    (8 ≤ 256 ∧ 248 + 8 ≤ 2 * 256 ∧ 248 % 256 + 8 ≤ 256 ∧ (given 0xff#256 (words X Y)).ports.reqVin.toNat < 2 ^ 8)
      ∧ (8 ≤ 256 ∧ 249 + 8 ≤ 2 * 256 ∧ 256 < 249 % 256 + 8 ∧ (given 0xff#256 (words X Y)).ports.reqVin.toNat < 2 ^ 8)
      ∧ 2 ^ 8 ≤ (given 0x100#256 (words X Y)).ports.reqVin.toNat ∧ 2 * 256 < 501 + 12 := by decide

/-- A straddling read that succeeds, and a read that fails. -/
theorem witness_ReadsGiveTheFieldBits :
    (Instr.mrd 2 252 8).isRead = true ∧ (Instr.mrd 2 252 8).wellFormed = true
      ∧ (answerOf (exec (.mrd 2 252 8) (given 0#256 (words X Y)))).map (·.status) = some .ok
      ∧ (answerOf (exec (.rdf 256 1) (given 0#256 (words X Y)))).map (·.status) = some .tooManyBits := by decide

theorem witness_WritesReplaceExactlyTheField :
    (Instr.mwr 2 252 8).isRead = false ∧ (Instr.mwr 2 252 8).wellFormed = true
      ∧ (answerOf (exec (.mwr 2 252 8) (given 0xab#256 (words X Y)))).map (·.status) = some .ok := by decide

/-- Words that agree with others inside the read's field and differ elsewhere; and a write that succeeds. -/
theorem witness_ReadsHaveNoSideEffect :
    (Instr.rdf 0 8).wellFormed = true ∧ words X Y ≠ words X 0
      ∧ (∀ a < 8, offsetBit (words X Y) a = offsetBit (words X 0) a)
      ∧ (Instr.wrf 0 8).wellFormed = true
      ∧ (answerOf (exec (.wrf 0 8) (given 0xaa#256 (words X 0)))).map (·.status) = some .ok := by decide

/-- A word index no write touches: for WRF, for a straddling MWR and for one that ends at its word's top bit; and
offsets just below and just above the field. -/
theorem witness_UnwrittenWordsPassThrough :
    (Instr.wrf 248 8).wellFormed = true ∧ (1 ≠ 0) ∧ (Instr.mwr 3 252 8).wellFormed = true ∧ (2 ≠ 252 / 256)
      ∧ (2 ≠ 252 / 256 + 1) ∧ (1 ≠ 248 / 256 ∧ 1 = 248 / 256 + 1 ∧ 248 % 256 + 8 ≤ 256) ∧ (251 < 252)
      ∧ (252 + 8 ≤ 260)
      ∧ (answerOf (exec (.mwr 3 252 8) (given 0xaa#256 (words X Y)))).map (·.status) = some .ok := by decide

/-- Words that agree with others below N, and differ above. -/
theorem witness_UnusedOperandsAreIgnored :
    (Instr.rdf 0 8).wordCount ≤ 1 ∧ words X Y ≠ words X 0 ∧ getWord (words X Y) 0 = getWord (words X 0) 0
      ∧ (answerOf (exec (.rdf 0 8) (given 0#256 (words X Y)))).isSome = true := by decide

/-- Also RdfResultIsBelowItsWidth's and WritingBackTheValueReadChangesNothing's. -/
theorem witness_RdfAfterWrfGivesTheValue :
    (answerOf (exec (.wrf 248 8) (given 0xff#256 (words X 0)))).map (·.status) = some .ok
      ∧ (answerOf (exec (.rdf 248 8) (given 0xff#256 (words X 0)))).map (·.status) = some .ok := by decide

/-- Two disjoint fields that touch, on either side. -/
theorem witness_WrfChangesOnlyItsField :
    (answerOf (exec (.wrf 100 100) (given 0#256 (words X 0)))).map (·.status) = some .ok
      ∧ (0 + 100 ≤ 100 ∨ 100 + 100 ≤ 0) ∧ (200 + 56 ≤ 100 ∨ 100 + 100 ≤ 200) ∧ 200 + 56 ≤ 256 := by decide

theorem witness_LastWriteWins :
    (answerOf (exec (.wrf 4 8) (given 0xff#256 (words X 0)))).map (·.status) = some .ok
      ∧ (answerOf (exec (.wrf 4 8) ((given 0xff#256 (words X 0)).withVin 0x12#256))).map (·.status) = some .ok := by decide

theorem witness_FieldLiesInTwoWordsThatExist :
    (1 ≤ 256 ∧ 256 ≤ 256 ∧ 3841 + 255 ≤ 16 * 256) ∧ (1 ≤ 2 ∧ 255 + 2 ≤ 2 * 256 ∧ straddles 255 2 = true) := by decide

theorem witness_MultiWordReductionAndRoundTrip :
    (answerOf (exec (.mwr 2 250 160) (given 0x89abcdef#256 (words X Y)))).map (·.status) = some .ok := by decide

/-- One accepting state for each clause of the priority: illegal, does not fit, value too large, a write that fits, and
a read. -/
theorem witness_StatusFollowsPriority :
    ¬ LegalWord 0x10000041#32
      ∧ (LegalWord 0x000fa03a#32 ∧ FieldDoesNotFit 0x000fa03a#32)
      ∧ (LegalWord 0x00004042#32 ∧ ¬ FieldDoesNotFit 0x00004042#32 ∧ opOf 0x00004042#32 = 2
        ∧ 2 ^ widthOf 0x00004042#32 ≤ (given 0x100#256 zeroWords).ports.reqVin.toNat)
      ∧ (given 0xff#256 zeroWords).ports.reqVin.toNat < 2 ^ widthOf 0x00004042#32
      ∧ (LegalWord 0x000c81c1#32 ∧ ¬ FieldDoesNotFit 0x000c81c1#32 ∧ opOf 0x000c81c1#32 = 1) := by
  unfold LegalWord FieldDoesNotFit; decide

/-- Two accepting states with equal operands and different stores, at two latencies. -/
theorem witness_ResultDependsOnOperandsAlone :
    ∃ s1 s2 : State, s1.Accepting ∧ s2.Accepting ∧ s1.request = s2.request ∧ s1.host.store ≠ s2.host.store
      ∧ (nextOf (edge 1 s1)).isSome = true ∧ (nextOf (edge 7 s2)).isSome = true := by
  refine ⟨(given 0#256 (words X Y)).present 0x000c81c1#32,
    { (given 0#256 (words X Y)).present 0x000c81c1#32 with host := { HostAgent.reset with store := words Y X } }, ?_⟩
  unfold State.Accepting; decide

/-- Two states that differ in the words presented and stored only. -/
theorem witness_WordsNeverBecomeCommands :
    ∃ s1 s2 : State, s1.ports.reqWin ≠ s2.ports.reqWin ∧ s1.ports.reqCmd = s2.ports.reqCmd
      ∧ s1.slot = s2.slot ∧ s1.host.script = s2.host.script
      ∧ (nextOf (edge 1 s1)).isSome = true ∧ (nextOf (edge 1 s2)).isSome = true := by
  refine ⟨(given 0#256 (words X Y)).present 0x000c81c1#32, (given 0#256 (words Y X)).present 0x000c81c1#32, ?_⟩
  decide

/-- Also the second half of AcceptanceSamplesTheOperands's: a full slot and an edge that goes on, awake and in reset. -/
theorem witness_ResetEmptiesTheSlot :
    (inReset (flying aRead 1 true .nothing)).ports.rstN = false
      ∧ (nextOf (edge 1 (inReset (flying aRead 1 true .nothing)))).isSome = true
      ∧ (flying aRead 1 true .nothing).ports.rstN = true
      ∧ (nextOf (edge 1 (flying aRead 1 true .nothing))).isSome = true := by decide

/-- An acceptance followed by edges without reset, for LATENCY 2 (before and at presentation) and LATENCY 1; a
presented response held, and handed over; and an idle slot. -/
theorem witness_ResponsePresentedFromLatencyOn :
    State.event 2 ((given 0#256 (words X 0)).present 0x000c81c1#32)
        = .accepted ((given 0#256 (words X 0)).present 0x000c81c1#32).request
      ∧ (runAwake 2 1 ((given 0#256 (words X 0)).present 0x000c81c1#32)).isSome = true
      ∧ ((runAwake 2 2 ((given 0#256 (words X 0)).present 0x000c81c1#32)).map (·.ports.rstN)) = some true
      ∧ ((runAwake 1 1 ((given 0#256 (words X 0)).present 0x000c81c1#32)).map (·.ports.rstN)) = some true
      ∧ State.presents 1 (flying aRead 1 false .nothing) = some aRead.response
      ∧ State.presents 1 (flying aRead 1 true .nothing) = some aRead.response
      ∧ (nextOf (edge 1 (flying aRead 1 false .nothing))).isSome = true
      ∧ (State.reset.slot = none ∧ State.event 1 State.reset = .idle) := by decide

/-- Also EveryEdgeKeepsTheInvariant's and OnlyHostReadsStopTheMachine's: a state with a request in flight that meets the invariant. -/
theorem witness_OneInFlightAnsweredInOrder :
    (flying aRead 1 true .nothing).Inv 1 ∧ (runAwake 1 1 (flying aRead 1 true .nothing)).isSome = true :=
  ⟨⟨rfl, fun f h => by cases h; decide, fun t h => by cases h⟩, by decide⟩

theorem witness_OutputsHaveNoValueOutsideAResponse :
    (flying aRead 1 true .outputs).rspValid 2 = false ∧ (flying aRead 1 true .outputs).host.reads ≠ .nothing
      ∧ State.presents 1 (flying aRead 1 true .outputs) = some aRead.response := by decide
/-- V-RDF-7 on the response ports. -/
theorem test_response_ports :
    (flying aRead 1 true .outputs).rspStatus 1 = some 0#3
      ∧ (flying aRead 1 true .outputs).rspVout 1 = some 0x123456789abcd#256
      ∧ (flying aRead 1 true .outputs).rspWout 1 0 = some X := by decide

/-- A read that succeeded, a read that failed, and a write. -/
theorem witness_VoutIsReadAsAValueOnlyAfterARead :
    (State.presents 1 (flying aRead 1 true .fieldValue) = some aRead.response ∧ aRead.response.status = .ok
        ∧ LegalWord aRead.cmd ∧ opOf aRead.cmd = 1)
      ∧ (State.presents 1 (flying anError 1 true .fieldValue) = some anError.response ∧ anError.response.status ≠ .ok)
      ∧ (State.presents 1 (flying aWrite 1 true .fieldValue) = some aWrite.response ∧ opOf aWrite.cmd = 2) := by
  unfold LegalWord; decide

theorem witness_StoreChangesOnlyByWriteBack :
    State.event 1 (flying aWrite 1 true .nothing) = .handedOver aWrite.response
      ∧ (flying aWrite 1 true .nothing).host.writesBack = true
      ∧ State.event 2 (flying aWrite 1 true .nothing) = .waiting
      ∧ (nextOf (edge 2 (flying aWrite 1 true .nothing))).isSome = true := by decide

/-- A host about to run V-WRF-12 and V-RDF-7 by the write-back harness. -/
theorem witness_HarnessAtThePorts :
    ∃ s : State, s.AtStart ∧ s.host.script = harnessScript [⟨0x00064322#32, 0#256⟩, ⟨0x000c81c1#32, 0#256⟩] := by
  refine ⟨{ State.reset with
    host := { HostAgent.reset with script := harnessScript [⟨0x00064322#32, 0#256⟩, ⟨0x000c81c1#32, 0#256⟩] } }, ?_⟩
  unfold State.AtStart; decide

/-- `rsp_ready = 1` and other levels change, with nothing presented. -/
theorem witness_NothingHappensWithoutAValidRequest :
    State.reset.slot = none ∧ State.reset.host.reads = .nothing
      ∧ ({ Ports.reset with rspReady := true, reqCmd := 0x000c81c1#32 } : Ports).reqValid = false := by decide

theorem witness_LinesAssembleToTheirCommands :
    ((Line.wrf 4095 511 0xff).instr.wellFormed = true ∧ (Line.wrf 4095 511 0xff).value < 2 ^ 256)
      ∧ (Line.rdf 4096 1).instr.wellFormed = false ∧ 2 ^ 256 ≤ (Line.wrf 0 8 (2 ^ 256)).value := by decide

/-- Scenario B's layout (spec/95_test_vectors.md P2), which fills the word. -/
theorem witness_LayoutRoundTrip :
    (∀ f ∈ ([⟨8, 0x5a⟩, ⟨160, 0x00112233445566778899aabbccddeeff01234567⟩, ⟨56, 0xa1b2c3d4e5f607⟩, ⟨32, 0xdeadbeef⟩] :
        List Field), 1 ≤ f.width ∧ f.value < 2 ^ f.width)
      ∧ layoutBits [⟨8, 0⟩, ⟨160, 0⟩, ⟨56, 0⟩, ⟨32, 0⟩] ≤ 256 := by decide

end Sys2Proof.Tests
end

section
/-! PROOFS of the family 10_state. First the answer of any command in the bit-offset space, told once in terms of the
command's own operands: whether its field fits, what a read answers, and what a write writes. -/

namespace Sys2Proof.Machine

/-! ### Words and the bit-offset space -/

/-- Bit `b` of word `k` is offset `k * 256 + b` (spec/20_memory.md R26). -/
theorem offsetBit_mul_add (ws : Words) (k : Nat) {b : Nat} (hb : b < 256) :
    offsetBit ws (k * 256 + b) = (getWord ws k).getLsbD b := by
  unfold offsetBit
  rw [show (k * 256 + b) / 256 = k by omega, show (k * 256 + b) % 256 = b by omega]

theorem getWord_eq_of_offsetBit_eq {ws ws' : Words} {k : Nat}
    (h : ∀ a, k * 256 ≤ a → a < (k + 1) * 256 → offsetBit ws a = offsetBit ws' a) :
    getWord ws k = getWord ws' k := by
  apply BitVec.eq_of_getLsbD_eq
  intro b hb
  have hbit := h (k * 256 + b) (by omega) (by omega)
  rwa [offsetBit_mul_add _ _ hb, offsetBit_mul_add _ _ hb] at hbit

theorem offsetBit_eq_of_getWord_eq {ws ws' : Words} {n a : Nat}
    (h : ∀ k, k < n → getWord ws k = getWord ws' k) (ha : a < n * 256) : offsetBit ws a = offsetBit ws' a := by
  unfold offsetBit
  rw [h (a / 256) (by omega)]

/-- `v` is the value of the field at `(o, w)` of the bit-offset space. -/
def IsField (ws : Words) (o w v : Nat) : Prop := ∀ b, v.testBit b = (decide (b < w) && offsetBit ws (o + b))

/-- `ws'` is `ws` with the field at `(o, w)` of the bit-offset space replaced by `v`. -/
def IsFieldWrite (ws ws' : Words) (o w v : Nat) : Prop :=
  ∀ a, offsetBit ws' a = if o ≤ a ∧ a < o + w then v.testBit (a - o) else offsetBit ws a

/-- A field depends on the words it lies in only. -/
theorem IsField.unique {ws ws' : Words} {n o w v v' : Nat} (hv : IsField ws o w v) (hv' : IsField ws' o w v')
    (h : ∀ k, k < n → getWord ws k = getWord ws' k) (hend : o + w ≤ n * 256) : v = v' := by
  apply Nat.eq_of_testBit_eq
  intro b
  rw [hv b, hv' b]
  by_cases hb : b < w
  · rw [offsetBit_eq_of_getWord_eq h (by omega)]
  · simp [hb]

/-- The same write to words that agree below `n` leaves words that agree below `n`. -/
theorem IsFieldWrite.getWord_eq {ws₁ ws₂ ws₁' ws₂' : Words} {n o w v : Nat} (h₁ : IsFieldWrite ws₁ ws₁' o w v)
    (h₂ : IsFieldWrite ws₂ ws₂' o w v) (h : ∀ k, k < n → getWord ws₁ k = getWord ws₂ k) {k : Nat} (hk : k < n) :
    getWord ws₁' k = getWord ws₂' k := by
  refine getWord_eq_of_offsetBit_eq fun a _ ha => ?_
  rw [h₁ a, h₂ a, offsetBit_eq_of_getWord_eq h (ha.trans_le (Nat.mul_le_mul_right 256 hk))]

/-- A field read within word `k` is the bits of the bit-offset space from its absolute offset `o` on. -/
theorem isField_readField (q : Request) {k l o w : Nat} (ho : k * 256 + l = o) (h : l + w ≤ 256) :
    IsField q.win o w (readField (q.word k) l w) := by
  subst ho
  intro b
  rw [readField_testBit]
  by_cases hb : b < w
  · rw [word_testBit q (by omega), Nat.add_assoc]
  · simp [hb]

/-- A field written within word `k` replaces the bits of the bit-offset space from its absolute offset `o` on. -/
theorem isFieldWrite_putWord (q : Request) {ws : Words} {k l o w v : Nat}
    (hword : getWord ws k = getWord q.win k) (hk : k < 16) (ho : k * 256 + l = o) (h : l + w ≤ 256) (hv : v < 2 ^ w) :
    IsFieldWrite ws (putWord ws k (toWord (writeField (q.word k) l w v))) o w v := by
  intro a
  rw [offsetBit_putWord ws hk, toWord_getLsbD, writeField_testBit (word_lt q k) h hv]
  by_cases hak : a / 256 = k
  · have hmod : a % 256 < 256 := Nat.mod_lt _ (by decide)
    have hfield : (l ≤ a % 256 ∧ a % 256 < l + w) ↔ (o ≤ a ∧ a < o + w) := by omega
    have hbit : a % 256 - l = a - o := by omega
    have hold : (q.word k).testBit (a % 256) = offsetBit ws a := by rw [offsetBit, hak, hword]; rfl
    simp [hak, hmod, hfield, hbit, hold]
  · have hout : ¬ (o ≤ a ∧ a < o + w) := by omega
    simp [hak, hout]

/-- The two parts of a straddling write make up one field (spec/41_multiword.md R57, R60). -/
theorem isFieldWrite_writeStraddling (q : Request) {o w : Nat} (hk : o / 256 + 1 < 16) (hw : w ≤ 256)
    (h : 256 < o % 256 + w) (hv : q.value < 2 ^ w) :
    IsFieldWrite q.win (writeStraddling q o w) o w q.value := by
  obtain ⟨m, hm⟩ : ∃ m, m = 256 - o % 256 := ⟨_, rfl⟩
  have hwords : writeStraddling q o w
      = putWord (putWord q.win (o / 256) (toWord (writeField (q.word (o / 256)) (o % 256) m (q.value &&& mask m))))
          (o / 256 + 1) (toWord (writeField (q.word (o / 256 + 1)) 0 (w - m) (q.value >>> m))) := by
    rw [hm]; rfl
  rw [hwords]
  intro a
  rw [isFieldWrite_putWord q (o := o + m) (getWord_putWord_other _ (by omega) _) hk (by omega) (by omega)
      (highPart_lt hv (by omega)) a,
    isFieldWrite_putWord q (o := o) rfl (by omega) (by omega) (by omega) (lowPart_lt _ _) a,
    Nat.testBit_shiftRight, Nat.testBit_and, mask_testBit]
  by_cases hhigh : o + m ≤ a ∧ a < o + m + (w - m)
  · have hin : o ≤ a ∧ a < o + w := by omega
    rw [if_pos hhigh, if_pos hin, show m + (a - (o + m)) = a - o by omega]
  · rw [if_neg hhigh]
    by_cases hlow : o ≤ a ∧ a < o + m
    · have hin : o ≤ a ∧ a < o + w := by omega
      have hbit : a - o < m := by omega
      simp [hlow, hin, hbit]
    · have hout : ¬ (o ≤ a ∧ a < o + w) := by omega
      rw [if_neg hlow, if_neg hout]

/-! ### The answer of any command -/

/-- The command's field fits: it is no wider than a word and ends within CAP. This is what the checks of
spec/40_field_accessor.md R48 and spec/41_multiword.md R58 come to. -/
structure FieldFits (i : Instr) : Prop where
  width_le : i.width ≤ 256
  end_le : i.offset + i.width ≤ i.wordCount * 256

theorem fieldFits_iff {i : Instr} : FieldFits i ↔ i.width ≤ 256 ∧ i.offset + i.width ≤ i.wordCount * 256 :=
  ⟨fun h => ⟨h.width_le, h.end_le⟩, fun h => ⟨h.1, h.2⟩⟩

theorem fieldFits_rdf (o w : Nat) : FieldFits (.rdf o w) ↔ o + w ≤ 256 := by
  simp only [fieldFits_iff, Instr.width, Instr.offset, Instr.wordCount]; omega

theorem fieldFits_wrf (o w : Nat) : FieldFits (.wrf o w) ↔ o + w ≤ 256 := by
  simp only [fieldFits_iff, Instr.width, Instr.offset, Instr.wordCount]; omega

theorem fieldFits_mrd (n o w : Nat) : FieldFits (.mrd n o w) ↔ w ≤ 256 ∧ o + w ≤ n * 256 := fieldFits_iff

theorem fieldFits_mwr (n o w : Nat) : FieldFits (.mwr n o w) ↔ w ≤ 256 ∧ o + w ≤ n * 256 := fieldFits_iff

/-- What well-formedness says of a command's operands, whichever command it is. -/
theorem operand_bounds_of_wellFormed {i : Instr} (h : i.wellFormed = true) :
    1 ≤ i.width ∧ 1 ≤ i.wordCount ∧ i.wordCount ≤ 16 := by
  cases i <;>
    simp [Instr.wellFormed, Instr.wordCountOk, Instr.offsetOk, Instr.widthOk, Instr.width, Instr.wordCount,
      Config.maxWords] at h ⊢ <;> omega

/-- R48 and R58: a field that does not fit is TOO_MANY_BITS, before any other check. -/
theorem respondTo_of_not_fieldFits {i : Instr} (h : ¬ FieldFits i) (q : Request) :
    respondTo i q = q.raise .tooManyBits := by
  cases i with
  | rdf o w => rw [fieldFits_rdf] at h; rw [respondTo, rdf_eq, if_pos (by omega)]
  | wrf o w => rw [fieldFits_wrf] at h; rw [respondTo, wrf_eq, if_pos (by omega)]
  | mrd n o w => rw [fieldFits_mrd] at h; rw [respondTo, mrd_eq, if_pos (by omega)]
  | mwr n o w => rw [fieldFits_mwr] at h; rw [respondTo, mwr_eq, if_pos (by omega)]

/-- A read whose field fits answers the field's value. -/
theorem respondTo_of_read {i : Instr} (hr : i.isRead = true) (hfit : FieldFits i) (q : Request) :
    ∃ v, respondTo i q = q.respondValue v ∧ IsField q.win i.offset i.width v := by
  cases i with
  | rdf o w =>
    rw [fieldFits_rdf] at hfit
    rw [respondTo, rdf_eq, if_neg (by omega)]
    exact ⟨_, rfl, isField_readField q (o := o) (by omega) hfit⟩
  | mrd n o w =>
    obtain ⟨hw, hend⟩ := (fieldFits_mrd n o w).mp hfit
    rw [respondTo, mrd_eq, if_neg (by omega)]
    by_cases hs : 256 < o % 256 + w
    · exact ⟨_, if_pos hs, readStraddling_testBit q hw hs⟩
    · exact ⟨_, if_neg hs, isField_readField q (o := o) (w := w) (by omega) (by omega)⟩
  | wrf o w => cases hr
  | mwr n o w => cases hr

/-- R68, R69: a write whose field fits and whose value does not is VALUE_TOO_LARGE. -/
theorem respondTo_of_tooLarge {i : Instr} (hr : i.isRead = false) (hfit : FieldFits i) {q : Request}
    (hv : 2 ^ i.width ≤ q.value) : respondTo i q = q.raise .valueTooLarge := by
  cases i with
  | rdf o w => cases hr
  | mrd n o w => cases hr
  | wrf o w =>
    rw [fieldFits_wrf] at hfit
    rw [respondTo, wrf_eq, if_neg (by omega)]
    exact if_pos hv
  | mwr n o w =>
    rw [fieldFits_mwr] at hfit
    rw [respondTo, mwr_eq, if_neg (by omega)]
    exact if_pos hv

/-- A write whose field and value fit replaces the field by VIN, whether it writes one word or two. -/
theorem respondTo_of_write {i : Instr} (hwf : i.wellFormed = true) (hr : i.isRead = false) (hfit : FieldFits i)
    {q : Request} (hv : q.value < 2 ^ i.width) :
    ∃ ws, respondTo i q = respondWords ws ∧ IsFieldWrite q.win ws i.offset i.width q.value := by
  cases i with
  | rdf o w => cases hr
  | mrd n o w => cases hr
  | wrf o w =>
    replace hv : q.value < 2 ^ w := hv
    rw [fieldFits_wrf] at hfit
    rw [respondTo, wrf_eq, if_neg (by omega), if_neg (by omega)]
    exact ⟨_, rfl, isFieldWrite_putWord q (o := o) rfl (by omega) (by omega) hfit hv⟩
  | mwr n o w =>
    replace hv : q.value < 2 ^ w := hv
    obtain ⟨hw1, -, hn⟩ : 1 ≤ w ∧ 1 ≤ n ∧ n ≤ 16 := operand_bounds_of_wellFormed hwf
    obtain ⟨hw, hend⟩ := (fieldFits_mwr n o w).mp hfit
    rw [respondTo, mwr_eq, if_neg (by omega), if_neg (by omega)]
    by_cases hs : 256 < o % 256 + w
    · exact ⟨_, if_pos hs, isFieldWrite_writeStraddling q (by omega) hw hs hv⟩
    · exact ⟨_, if_neg hs, isFieldWrite_putWord q (o := o) rfl (by omega) (by omega) (by omega) hv⟩

/-- Every answer of a well-formed command is one of these four. -/
theorem respondTo_cases {i : Instr} (hwf : i.wellFormed = true) (q : Request) :
    (¬ FieldFits i ∧ respondTo i q = q.raise .tooManyBits)
    ∨ (FieldFits i ∧ i.isRead = true ∧ ∃ v, respondTo i q = q.respondValue v ∧ IsField q.win i.offset i.width v)
    ∨ (FieldFits i ∧ i.isRead = false ∧ 2 ^ i.width ≤ q.value ∧ respondTo i q = q.raise .valueTooLarge)
    ∨ (FieldFits i ∧ i.isRead = false ∧ q.value < 2 ^ i.width ∧ ∃ ws, respondTo i q = respondWords ws
        ∧ IsFieldWrite q.win ws i.offset i.width q.value) := by
  by_cases hfit : FieldFits i
  · cases hr : i.isRead with
    | true => exact .inr (.inl ⟨hfit, rfl, respondTo_of_read hr hfit q⟩)
    | false =>
      by_cases hv : 2 ^ i.width ≤ q.value
      · exact .inr (.inr (.inl ⟨hfit, rfl, hv, respondTo_of_tooLarge hr hfit hv⟩))
      · exact .inr (.inr (.inr ⟨hfit, rfl, by omega, respondTo_of_write hwf hr hfit (by omega)⟩))
  · exact .inl ⟨hfit, respondTo_of_not_fieldFits hfit q⟩

/-! ### What a command leaves unchanged (spec/10_state.md R15) -/

/-- RDF and MRD write no word. -/
theorem respondTo_wout_of_read {i : Instr} (hr : i.isRead = true) (q : Request) : (respondTo i q).wout = q.win := by
  by_cases hfit : FieldFits i
  · obtain ⟨v, heq, -⟩ := respondTo_of_read hr hfit q
    rw [heq, respondValue_wout]
  · rw [respondTo_of_not_fieldFits hfit, raise_wout]

/-- Only a write whose field fits and whose status is OK can change a word. -/
theorem respondTo_unchanged_or_write {i : Instr} (hwf : i.wellFormed = true) (q : Request) :
    (respondTo i q).wout = q.win
    ∨ (FieldFits i ∧ (respondTo i q).status = .ok
        ∧ ∀ a, (a < i.offset ∨ i.offset + i.width ≤ a) → offsetBit (respondTo i q).wout a = offsetBit q.win a) := by
  rcases respondTo_cases hwf q with ⟨-, heq⟩ | ⟨-, -, v, heq, -⟩ | ⟨-, -, -, heq⟩ | ⟨hfit, -, -, ws, heq, hwrite⟩
  · exact .inl (by rw [heq, raise_wout])
  · exact .inl (by rw [heq, respondValue_wout])
  · exact .inl (by rw [heq, raise_wout])
  · refine .inr ⟨hfit, by rw [heq, respondWords_status], fun a ha => ?_⟩
    rw [heq, respondWords_wout, hwrite a, if_neg (by omega)]

/-- A command that ends in an error writes no word. -/
theorem respondTo_wout_of_error {i : Instr} (hwf : i.wellFormed = true) {q : Request}
    (h : (respondTo i q).status ≠ .ok) : (respondTo i q).wout = q.win :=
  (respondTo_unchanged_or_write hwf q).resolve_right fun ⟨_, hok, _⟩ => h hok

/-- Every offset outside the field is as in WIN. -/
theorem offsetBit_respondTo_wout_outside {i : Instr} (hwf : i.wellFormed = true) (q : Request) {a : Nat}
    (ha : a < i.offset ∨ i.offset + i.width ≤ a) : offsetBit (respondTo i q).wout a = offsetBit q.win a := by
  rcases respondTo_unchanged_or_write hwf q with heq | ⟨-, -, hout⟩
  · rw [heq]
  · exact hout a ha

/-- A word that no field which fits can touch is as in WIN. -/
theorem getWord_respondTo_wout_outside {i : Instr} (hwf : i.wellFormed = true) (q : Request) {k : Nat}
    (hk : FieldFits i → (k + 1) * 256 ≤ i.offset ∨ i.offset + i.width ≤ k * 256) :
    getWord (respondTo i q).wout k = getWord q.win k := by
  rcases respondTo_unchanged_or_write hwf q with heq | ⟨hfit, -, hout⟩
  · rw [heq]
  · have hdisjoint := hk hfit
    exact getWord_eq_of_offsetBit_eq fun a hlo hhi => hout a (by omega)

/-- The words from N up are as in WIN (spec/10_state.md R24). -/
theorem getWord_respondTo_wout_of_wordCount_le {i : Instr} (hwf : i.wellFormed = true) (q : Request) {k : Nat}
    (hk : i.wordCount ≤ k) : getWord (respondTo i q).wout k = getWord q.win k :=
  getWord_respondTo_wout_outside hwf q fun hfit => .inr (hfit.end_le.trans (Nat.mul_le_mul_right 256 hk))

/-- Settles O17: each clause is a frame of the answer in the bit-offset space. -/
theorem unwrittenWordsPassThrough : Obligations.UnwrittenWordsPassThrough := by
  unfold Obligations.UnwrittenWordsPassThrough
  intro i s r hwf h
  rw [answerOf_exec] at h
  obtain rfl := Option.some.inj h
  refine ⟨fun hr => respondTo_wout_of_read hr s.request, respondTo_wout_of_error hwf, ?wrf, ?mwr,
    fun a => offsetBit_respondTo_wout_outside hwf s.request⟩
  case wrf =>
    rintro o w rfl k hk
    exact getWord_respondTo_wout_of_wordCount_le hwf s.request (Nat.one_le_iff_ne_zero.mpr hk)
  case mwr =>
    rintro n o w rfl k hk hnext
    refine getWord_respondTo_wout_outside hwf s.request fun ⟨hw, _⟩ => ?_
    simp only [Instr.width, Instr.offset] at hw ⊢
    omega

/-! ### What a command ignores (spec/10_state.md R24) -/

@[simp] theorem withVin_request (s : State) (v : Word) : (s.withVin v).request = { s.request with vin := v } := rfl

@[simp] theorem withWords_request (s : State) (ws : Words) :
    (s.withWords ws).request = { s.request with win := ws } := rfl

/-- RDF and MRD ignore VIN. -/
theorem respondTo_withVin_of_read {i : Instr} (hr : i.isRead = true) (q : Request) (v : Word) :
    respondTo i { q with vin := v } = respondTo i q := by
  cases i with
  | rdf o w => rfl
  | mrd n o w => rfl
  | wrf o w => cases hr
  | mwr n o w => cases hr

/-- Words that agree below N get the same answer there: the checks look at no word, and a field that fits lies in the
words below N. -/
theorem respondTo_agrees_below_wordCount {i : Instr} (hwf : i.wellFormed = true) (q : Request) {ws : Words}
    (h : ∀ k, k < i.wordCount → getWord ws k = getWord q.win k) :
    (respondTo i { q with win := ws }).status = (respondTo i q).status
    ∧ (respondTo i { q with win := ws }).vout = (respondTo i q).vout
    ∧ ∀ k, k < i.wordCount → getWord (respondTo i { q with win := ws }).wout k = getWord (respondTo i q).wout k := by
  rcases respondTo_cases hwf q with ⟨hfit, heq⟩ | ⟨hfit, hr, v, heq, hfield⟩ | ⟨hfit, hr, hv, heq⟩
    | ⟨hfit, hr, hv, out, heq, hwrite⟩
  · rw [respondTo_of_not_fieldFits hfit, heq]
    exact ⟨rfl, rfl, h⟩
  · obtain ⟨v', heq', hfield'⟩ := respondTo_of_read hr hfit { q with win := ws }
    rw [heq, heq', hfield'.unique hfield h hfit.end_le]
    exact ⟨rfl, rfl, h⟩
  · rw [respondTo_of_tooLarge hr hfit (q := { q with win := ws }) hv, heq]
    exact ⟨rfl, rfl, h⟩
  · obtain ⟨out', heq', hwrite'⟩ := respondTo_of_write hwf hr hfit (q := { q with win := ws }) hv
    rw [heq, heq']
    exact ⟨rfl, rfl, fun k => hwrite'.getWord_eq hwrite h⟩

/-- Settles O18: the answer is told by the operands below N, and VIN has a part in writes only. -/
theorem unusedOperandsAreIgnored : Obligations.UnusedOperandsAreIgnored := by
  unfold Obligations.UnusedOperandsAreIgnored
  intro i s r hwf h
  rw [answerOf_exec] at h
  obtain rfl := Option.some.inj h
  refine ⟨fun hr v => ?vin, fun k => getWord_respondTo_wout_of_wordCount_le hwf s.request, fun ws hws => ?words⟩
  case vin => rw [answerOf_exec, withVin_request, respondTo_withVin_of_read hr]
  case words =>
    obtain ⟨hstatus, hvout, hwout⟩ := respondTo_agrees_below_wordCount hwf s.request hws
    exact ⟨_, answerOf_exec i (s.withWords ws), hstatus, hvout, hwout,
      fun k => getWord_respondTo_wout_of_wordCount_le hwf (s.withWords ws).request⟩

/-! ### The response at an accepting edge (spec/10_state.md R12) -/

/-- An accepting edge that goes on leaves the response to its operands in the slot, at any LATENCY. -/
theorem slot_of_accepting_edge {latency : Nat} {s t : State} (hacc : s.Accepting) (h : edge latency s = .next t) :
    t.slot = some { rsp := s.request.response, waited := 1 } := by
  obtain ⟨-, rfl⟩ := edge_next h
  rw [hostEdge_slot, event_of_accepting hacc]
  rfl

/-- Settles O32: both slots hold the response to the one request. -/
theorem resultDependsOnOperandsAlone : Obligations.ResultDependsOnOperandsAlone := by
  unfold Obligations.ResultDependsOnOperandsAlone
  intro l1 l2 s1 s2 t1 t2 hacc1 hacc2 hreq h1 h2
  have hslot1 := slot_of_accepting_edge hacc1 h1
  have hslot2 := slot_of_accepting_edge hacc2 h2
  exact ⟨by rw [hslot1, hslot2, hreq], _, hslot1, rfl⟩

end Sys2Proof.Machine
end

section
/-! PROOFS of the family 20_memory: what a command's answer depends on, and a command run on its own answer
(spec/20_memory.md R31). -/

namespace Sys2Proof.Machine

/-! ### A field depends on its own bits -/

/-- The value of a field is its value in any words that agree on the field's bits. -/
theorem IsField.of_field_bits_eq {ws ws' : Words} {o w v : Nat} (hv : IsField ws o w v)
    (h : ∀ a, o ≤ a → a < o + w → offsetBit ws' a = offsetBit ws a) : IsField ws' o w v := by
  intro b
  rw [hv b]
  by_cases hb : b < w
  · rw [h (o + b) (by omega) (by omega)]
  · simp [hb]

/-- A read answers the same STATUS and VOUT on any words that agree on its field. -/
theorem respondTo_agrees_on_field_of_read {i : Instr} (hr : i.isRead = true) (q : Request) {ws : Words}
    (h : ∀ a, i.offset ≤ a → a < i.offset + i.width → offsetBit ws a = offsetBit q.win a) :
    (respondTo i { q with win := ws }).status = (respondTo i q).status
    ∧ (respondTo i { q with win := ws }).vout = (respondTo i q).vout := by
  by_cases hfit : FieldFits i
  · obtain ⟨v, heq, hfield⟩ := respondTo_of_read hr hfit q
    obtain ⟨v', heq', hfield'⟩ := respondTo_of_read hr hfit { q with win := ws }
    have hval : v' = v := hfield'.unique (hfield.of_field_bits_eq h) (fun _ _ => rfl) hfit.end_le
    rw [heq, heq', hval]
    exact ⟨rfl, rfl⟩
  · rw [respondTo_of_not_fieldFits hfit, respondTo_of_not_fieldFits hfit]
    exact ⟨rfl, rfl⟩

/-! ### A command run on its own WOUT -/

/-- Writing the same field again changes nothing more. -/
theorem IsFieldWrite.idempotent {ws ws' ws'' : Words} {o w v : Nat} (h : IsFieldWrite ws ws' o w v)
    (h' : IsFieldWrite ws' ws'' o w v) : ws'' = ws' := by
  refine words_ext fun k _ => getWord_eq_of_offsetBit_eq fun a _ _ => ?_
  rw [h' a, h a]
  split <;> rfl

/-- Every command answers the same again on its own WOUT: it left the words as they were, or wrote a field that it
now writes again. -/
theorem respondTo_own_wout {i : Instr} (hwf : i.wellFormed = true) (q : Request) :
    respondTo i { q with win := (respondTo i q).wout } = respondTo i q := by
  rcases respondTo_cases hwf q with ⟨-, heq⟩ | ⟨-, -, v, heq, -⟩ | ⟨-, -, -, heq⟩ | ⟨hfit, hr, hv, ws, heq, hwrite⟩
  · rw [heq, raise_wout]; exact heq
  · rw [heq, respondValue_wout]; exact heq
  · rw [heq, raise_wout]; exact heq
  · rw [heq, respondWords_wout]
    obtain ⟨ws', heq', hwrite'⟩ := respondTo_of_write hwf hr hfit (q := { q with win := ws }) hv
    rw [heq', hwrite.idempotent hwrite']

/-- Settles O19: a read is told by its field's bits, and the same write of the same field is idempotent. -/
theorem readsHaveNoSideEffect : Obligations.ReadsHaveNoSideEffect := by
  unfold Obligations.ReadsHaveNoSideEffect
  intro i s r hwf h
  rw [answerOf_exec] at h
  obtain rfl := Option.some.inj h
  refine ⟨fun hr => ⟨respondTo_wout_of_read hr s.request, fun ws hws => ?read⟩, fun _ => ?write⟩
  case read =>
    obtain ⟨hstatus, hvout⟩ := respondTo_agrees_on_field_of_read hr s.request hws
    exact ⟨_, answerOf_exec i (s.withWords ws), hstatus, hvout, respondTo_wout_of_read hr (s.withWords ws).request⟩
  case write => rw [answerOf_exec, withWords_request, respondTo_own_wout hwf]

end Sys2Proof.Machine
end

section
/-! PROOFS of the family 30_encoding. First the encoding of any command, told once in terms of the command's own
operands; then what each obligation reads off it. -/

namespace Sys2Proof.Machine

open Sys2Proof.Laws.EncodedIsLegal (fields_of_encodeFields)

/-! ### The encoding of any command -/

/-- OP of each command (spec/30_encoding.md R39). -/
def opcode : Instr → Nat
  | .rdf _ _ => 1
  | .wrf _ _ => 2
  | .mrd _ _ _ => 3
  | .mwr _ _ _ => 4

/-- R44 for all four commands at once: NWM1 is N - 1, which is 0 for RDF and WRF. -/
theorem encode_eq_encodeFields (i : Instr) :
    encode i = encodeFields (opcode i) i.width i.offset (i.wordCount - 1) := by
  cases i <;> rfl

theorem opcode_lt (i : Instr) : opcode i < 8 := by cases i <;> simp [opcode]

/-- Well-formedness in terms of the operands: RDF and WRF have N = 1. -/
theorem wellFormed_iff (i : Instr) :
    i.wellFormed = true ↔ (1 ≤ i.wordCount ∧ i.wordCount ≤ 16) ∧ i.offset ≤ 4095 ∧ 1 ≤ i.width ∧ i.width ≤ 511 := by
  cases i <;>
    simp [Instr.wellFormed, Instr.wordCountOk, Instr.offsetOk, Instr.widthOk, Instr.wordCount, Instr.offset,
      Instr.width, Config.maxWords, and_assoc]

/-- The decoder in one equivalence: a word decodes to a command exactly when its fields are the command's, with
RSV and the width as spec/30_encoding.md R40 asks. -/
theorem decode_eq_ok_iff {c : Command} {i : Instr} :
    decode c = .ok i ↔
      rsvOf c = 0 ∧ nwm1Of c + 1 = i.wordCount ∧ opOf c = opcode i ∧ offsetOf c = i.offset ∧ widthOf c = i.width
        ∧ i.width ≠ 0 := by
  constructor
  · intro h
    obtain ⟨hrsv, hw, hform⟩ := decode_ok_cases h
    rcases hform with ⟨hop, hn, rfl⟩ | ⟨hop, hn, rfl⟩ | ⟨hop, rfl⟩ | ⟨hop, rfl⟩
    · exact ⟨hrsv, by rw [hn]; rfl, hop, rfl, rfl, hw⟩
    · exact ⟨hrsv, by rw [hn]; rfl, hop, rfl, rfl, hw⟩
    · exact ⟨hrsv, rfl, hop, rfl, rfl, hw⟩
    · exact ⟨hrsv, rfl, hop, rfl, rfl, hw⟩
  · rintro ⟨hrsv, hn, hop, ho, hw, hw0⟩
    rw [decode_eq, hrsv, hop, ho, hw]
    cases i with
    | rdf o w => simp [opcode, Instr.width, Instr.offset, show w ≠ 0 from hw0, show nwm1Of c = 0 from Nat.succ.inj hn]
    | wrf o w => simp [opcode, Instr.width, Instr.offset, show w ≠ 0 from hw0, show nwm1Of c = 0 from Nat.succ.inj hn]
    | mrd n o w => simp [opcode, Instr.width, Instr.offset, show w ≠ 0 from hw0, show nwm1Of c + 1 = n from hn]
    | mwr n o w => simp [opcode, Instr.width, Instr.offset, show w ≠ 0 from hw0, show nwm1Of c + 1 = n from hn]

/-- R44: an encoding has 32 bits, so none is dropped. -/
theorem encodeFields_toNat {op w o nwm1 : Nat} (hop : op < 8) (hw : w < 512) (ho : o < 4096) (hn : nwm1 < 16) :
    (encodeFields op w o nwm1).toNat = (nwm1 <<< 24 ||| o <<< 12 ||| w <<< 3 ||| op) := by
  rw [encodeFields, BitVec.toNat_ofNat, Nat.mod_eq_of_lt]
  have hlt : nwm1 <<< 24 < 2 ^ 32 ∧ o <<< 12 < 2 ^ 32 ∧ w <<< 3 < 2 ^ 32 := by
    simp only [Nat.shiftLeft_eq]; omega
  exact Nat.or_lt_two_pow (Nat.or_lt_two_pow (Nat.or_lt_two_pow hlt.1 hlt.2.1) hlt.2.2) (by omega)

theorem encode_toNat {i : Instr} (h : i.wellFormed = true) :
    (encode i).toNat = ((i.wordCount - 1) <<< 24 ||| i.offset <<< 12 ||| i.width <<< 3 ||| opcode i) := by
  obtain ⟨hn, ho, hw⟩ := (wellFormed_iff i).mp h
  rw [encode_eq_encodeFields]
  exact encodeFields_toNat (opcode_lt i) (by omega) (by omega) (by omega)

theorem decode_encode {i : Instr} (h : i.wellFormed = true) : decode (encode i) = .ok i := by
  obtain ⟨hn, ho, hw⟩ := (wellFormed_iff i).mp h
  obtain ⟨hop, hwidth, hoffset, hnwm1, hrsv⟩ := fields_of_encodeFields (op := opcode i) (w := i.width) (o := i.offset)
    (nwm1 := i.wordCount - 1) (opcode_lt i) (by omega) (by omega) (by omega)
  rw [encode_eq_encodeFields]
  exact decode_eq_ok_iff.mpr ⟨hrsv, by omega, hop, hoffset, hwidth, by omega⟩

/-- Settles O1: the encoding's fields are the command's, and R44's formula fits in 32 bits. -/
theorem encodeThenDecode : Obligations.EncodeThenDecode := by
  unfold Obligations.EncodeThenDecode
  exact ⟨fun i => decode_encode, fun o w => encode_toNat, fun o w => encode_toNat, fun n o w => encode_toNat,
    fun n o w => encode_toNat, by decide, by decide, by decide⟩

/-! ### Which words decode -/

theorem legalWord_of_decode {c : Command} {i : Instr} (h : decode c = .ok i) : LegalWord c := by
  obtain ⟨hrsv, hn, hop, -, hw, hw0⟩ := decode_eq_ok_iff.mp h
  cases i <;> simp only [opcode, Instr.wordCount] at hop hn <;> exact ⟨hrsv, by omega, by omega, by omega⟩

/-- A legal word decodes to the command its OP names in R39, with its fields as operands. -/
theorem decode_of_legalWord {c : Command} (h : LegalWord c) :
    (opOf c = 1 → decode c = .ok (.rdf (offsetOf c) (widthOf c)))
    ∧ (opOf c = 2 → decode c = .ok (.wrf (offsetOf c) (widthOf c)))
    ∧ (opOf c = 3 → decode c = .ok (.mrd (nwm1Of c + 1) (offsetOf c) (widthOf c)))
    ∧ (opOf c = 4 → decode c = .ok (.mwr (nwm1Of c + 1) (offsetOf c) (widthOf c))) := by
  obtain ⟨hrsv, -, hw, hn⟩ := h
  have hsingle : opOf c = 1 ∨ opOf c = 2 → nwm1Of c + 1 = 1 := by omega
  exact ⟨fun hop => decode_eq_ok_iff.mpr ⟨hrsv, hsingle (.inl hop), hop, rfl, rfl, hw⟩,
    fun hop => decode_eq_ok_iff.mpr ⟨hrsv, hsingle (.inr hop), hop, rfl, rfl, hw⟩,
    fun hop => decode_eq_ok_iff.mpr ⟨hrsv, rfl, hop, rfl, rfl, hw⟩,
    fun hop => decode_eq_ok_iff.mpr ⟨hrsv, rfl, hop, rfl, rfl, hw⟩⟩

theorem exists_decode_ok_iff (c : Command) : (∃ i, decode c = .ok i) ↔ LegalWord c := by
  refine ⟨fun ⟨_, h⟩ => legalWord_of_decode h, fun h => ?_⟩
  obtain ⟨hrdf, hwrf, hmrd, hmwr⟩ := decode_of_legalWord h
  obtain ⟨-, hop | hop | hop | hop, -⟩ := h
  · exact ⟨_, hrdf hop⟩
  · exact ⟨_, hwrf hop⟩
  · exact ⟨_, hmrd hop⟩
  · exact ⟨_, hmwr hop⟩

theorem exists_decode_error_iff (c : Command) : (∃ e, decode c = .error e) ↔ ¬ LegalWord c := by
  rw [← exists_decode_ok_iff]
  cases decode c <;> simp

/-- Settles O3: the sliced fields are the fields by position, and the decoder is read off them. -/
theorem decodeReadsTheFields : Obligations.DecodeReadsTheFields := by
  unfold Obligations.DecodeReadsTheFields
  exact fun c => ⟨⟨fieldOp_eq c, fieldWidth_eq c, fieldOffset_eq c, fieldNwm1_eq c, fieldRsv_eq c⟩,
    decode_of_legalWord, (exists_decode_error_iff c).mpr⟩

/-- A command whose OP is 1 or 2 has N = 1 (spec/30_encoding.md R38). -/
theorem wordCount_of_opcode_single {i : Instr} (h : opcode i = 1 ∨ opcode i = 2) : i.wordCount = 1 := by
  cases i with
  | rdf o w => rfl
  | wrf o w => rfl
  | mrd n o w => simp [opcode] at h
  | mwr n o w => simp [opcode] at h

/-- Settles O4: N is NWM1 + 1 in every decoded command, and NWM1 is below 16. -/
theorem wordCountAndCapacity : Obligations.WordCountAndCapacity := by
  unfold Obligations.WordCountAndCapacity
  intro c i h
  obtain ⟨-, hn, hop, -⟩ := decode_eq_ok_iff.mp h
  have hlt := nwm1Of_lt c
  refine ⟨fun _ => hn.symm, fun hsingle => ?single, by omega, by omega, rfl⟩
  case single =>
    have hone : i.wordCount = 1 := wordCount_of_opcode_single (by omega)
    exact ⟨hone, by rw [Instr.capacity, hone, Nat.one_mul]⟩

/-! ### The rows of spec/opcode_table.json (spec/30_encoding.md R47) -/

/-- What a row's mask keeps of a word: the `n` bits from bit `t` up, and the lowest `k` bits. -/
theorem and_rowMask (x n : Nat) {t k : Nat} (h : k ≤ t) :
    x &&& (mask n <<< t ||| mask k) = x / 2 ^ t % 2 ^ n * 2 ^ t + x % 2 ^ k := by
  have hhigh : x &&& mask n <<< t = (x / 2 ^ t % 2 ^ n) <<< t := by
    apply Nat.eq_of_testBit_eq
    intro b
    rw [← Nat.shiftRight_eq_div_pow, Nat.testBit_and, Nat.testBit_shiftLeft, Nat.testBit_shiftLeft, mask_testBit,
      Nat.testBit_mod_two_pow, Nat.testBit_shiftRight]
    by_cases hb : t ≤ b
    · simp [hb, Bool.and_comm]
    · simp [hb]
  have hlow : x % 2 ^ k < 2 ^ t := (Nat.mod_lt _ (by positivity)).trans_le (Nat.pow_le_pow_right (by omega) h)
  rw [Nat.and_or_distrib_left, hhigh, mask, Nat.and_two_pow_sub_one_eq_mod, ← Nat.shiftLeft_add_eq_or_of_lt hlow,
    Nat.shiftLeft_eq]

/-- The rows of RDF and WRF fix RSV, NWM1 and OP. -/
theorem matches_singleWord_row_iff (c : Command) {op : Nat} (h : op < 8) :
    c &&& 0xFF000007#32 = BitVec.ofNat 32 op ↔ rsvOf c = 0 ∧ nwm1Of c = 0 ∧ opOf c = op := by
  have hkeep := and_rowMask c.toNat 8 (t := 24) (k := 3) (by decide)
  rw [show mask 8 <<< 24 ||| mask 3 = 0xFF000007 by decide] at hkeep
  rw [← BitVec.toNat_inj, BitVec.toNat_and, BitVec.toNat_ofNat, BitVec.toNat_ofNat,
    show 0xFF000007 % 2 ^ 32 = 0xFF000007 by decide, hkeep]
  have hlt := c.isLt
  simp only [rsvOf, nwm1Of, opOf]
  omega

/-- The rows of MRD and MWR fix RSV and OP. -/
theorem matches_multiWord_row_iff (c : Command) {op : Nat} (h : op < 8) :
    c &&& 0xF0000007#32 = BitVec.ofNat 32 op ↔ rsvOf c = 0 ∧ opOf c = op := by
  have hkeep := and_rowMask c.toNat 4 (t := 28) (k := 3) (by decide)
  rw [show mask 4 <<< 28 ||| mask 3 = 0xF0000007 by decide] at hkeep
  rw [← BitVec.toNat_inj, BitVec.toNat_and, BitVec.toNat_ofNat, BitVec.toNat_ofNat,
    show 0xF0000007 % 2 ^ 32 = 0xF0000007 by decide, hkeep]
  have hlt := c.isLt
  simp only [rsvOf, opOf]
  omega

/-- Settles O5: a row's mask keeps exactly the fields that the decoder asks of its command, and OP tells the rows
apart. -/
theorem opcodeTableRowsAreDisjoint : Obligations.OpcodeTableRowsAreDisjoint := by
  unfold Obligations.OpcodeTableRowsAreDisjoint
  intro c
  have hrdf := matches_singleWord_row_iff c (op := 1) (by decide)
  have hwrf := matches_singleWord_row_iff c (op := 2) (by decide)
  have hmrd := matches_multiWord_row_iff c (op := 3) (by decide)
  have hmwr := matches_multiWord_row_iff c (op := 4) (by decide)
  refine ⟨?rdf, ?wrf, ?mrd, ?mwr, exists_decode_error_iff c, ?disjoint⟩
  case rdf | wrf | mrd | mwr =>
    simp [hrdf, hwrf, hmrd, hmwr, decode_eq_ok_iff, opcode, Instr.wordCount, Instr.offset, Instr.width, and_assoc]
  case disjoint =>
    simp only [List.countP_cons, List.countP_nil, beq_iff_eq, hrdf, hwrf, hmrd, hmwr]
    split_ifs <;> omega

/-! ### The answer to a command word -/

theorem response_of_decode_ok {q : Request} {i : Instr} (h : decode q.cmd = .ok i) : q.response = respondTo i q := by
  rw [Request.response, h]

/-- R66: a word that is not legal is answered with ILLEGAL_COMMAND, whatever VIN and WIN are. -/
theorem response_of_not_legalWord {q : Request} (h : ¬ LegalWord q.cmd) : q.response = q.raise .illegalCommand := by
  obtain ⟨e, he⟩ := (exists_decode_error_iff q.cmd).mpr h
  rw [Request.response, he]

/-- A step at an accepting edge with a host that reads nothing: the response enters the slot, and the host does its
part. -/
theorem step_of_accepting {s : State} (hacc : s.Accepting) (hreads : s.host.reads = .nothing) :
    step s = .next ((s.answer s.request.response).hostEdge (.accepted s.request)) := by
  rw [step, edge_of_readFault_none (readFault_of_reads_nothing hreads), event_of_accepting hacc]
  rfl

/-- Settles O9: the response is the command's if the word decodes, and ILLEGAL_COMMAND if it does not. -/
theorem illegalCommandAnswered : Obligations.IllegalCommandAnswered := by
  unfold Obligations.IllegalCommandAnswered
  intro s hacc hreads
  have hstep := step_of_accepting hacc hreads
  refine ⟨fun hlegal => ?legal, fun hillegal => ?illegal⟩
  case legal =>
    obtain ⟨i, hi⟩ := (exists_decode_ok_iff s.ports.reqCmd).mpr hlegal
    rw [response_of_decode_ok (q := s.request) hi] at hstep
    exact ⟨i, _, hi, exec_eq i s, hstep⟩
  case illegal =>
    rw [response_of_not_legalWord (q := s.request) hillegal] at hstep
    exact hstep

/-! ### STATUS (spec/30_encoding.md R42) -/

/-- The decoder gives no command that cannot be encoded. -/
theorem wellFormed_of_decode {c : Command} {i : Instr} (h : decode c = .ok i) : i.wellFormed = true := by
  obtain ⟨-, hn, -, ho, hw, hw0⟩ := decode_eq_ok_iff.mp h
  have hn16 := nwm1Of_lt c
  have ho4096 := offsetOf_lt c
  have hw512 := widthOf_lt c
  exact (wellFormed_iff i).mpr ⟨by omega, by omega, by omega⟩

theorem err_status_produced (e : Err) : e.status.produced = true := by cases e <;> rfl

theorem response_status_produced (q : Request) : q.response.status.produced = true := by
  by_cases hlegal : LegalWord q.cmd
  · obtain ⟨i, hi⟩ := (exists_decode_ok_iff q.cmd).mpr hlegal
    rw [response_of_decode_ok hi]
    rcases respondTo_cases (wellFormed_of_decode hi) q with ⟨-, heq⟩ | ⟨-, -, v, heq, -⟩ | ⟨-, -, -, heq⟩
      | ⟨-, -, -, ws, heq, -⟩
    · rw [heq]; exact err_status_produced .tooManyBits
    · rw [heq]; rfl
    · rw [heq]; exact err_status_produced .valueTooLarge
    · rw [heq]; rfl
  · rw [response_of_not_legalWord hlegal]
    exact err_status_produced .illegalCommand

/-- R42's produced codes as numbers. -/
theorem code_of_produced {st : Status} (h : st.produced = true) :
    st.code = 0#3 ∨ st.code = 3#3 ∨ st.code = 4#3 ∨ st.code = 7#3 := by
  revert h
  cases st <;> decide

/-- Settles O31: the slot holds the response to the request, and every response's STATUS is one the FBA produces. -/
theorem statusCodesProduced : Obligations.StatusCodesProduced := by
  unfold Obligations.StatusCodesProduced
  refine ⟨by decide, fun s t hacc h => ?_⟩
  exact ⟨_, slot_of_accepting_edge hacc h, code_of_produced (response_status_produced s.request)⟩

end Sys2Proof.Machine
end

section
/-! PROOFS of the family 40_field_accessor. First what it means to read and write a field of the bit-offset space, with
no command in sight: these are the laws R51 to R55. Then when a command's answer is such a read or write, and what each
obligation reads off it. -/

namespace Sys2Proof.Machine

/-! ### The laws of a field (spec/40_field_accessor.md R51 to R55) -/

/-- R51 for a field anywhere in the bit-offset space. -/
theorem IsField.lt_two_pow {ws : Words} {o w v : Nat} (h : IsField ws o w v) : v < 2 ^ w := by
  refine Nat.lt_pow_two_of_testBit v fun b hb => ?_
  simp [h b, Nat.not_lt.mpr hb]

/-- R52: the field written is the value written. -/
theorem IsFieldWrite.isField {ws ws' : Words} {o w v : Nat} (h : IsFieldWrite ws ws' o w v) (hv : v < 2 ^ w) :
    IsField ws' o w v := by
  intro b
  rw [h (o + b), Nat.add_sub_cancel_left]
  by_cases hb : b < w
  · simp [hb]
  · have hhigh : v.testBit b = false :=
      Nat.testBit_lt_two_pow (hv.trans_le (Nat.pow_le_pow_right (by omega) (Nat.not_lt.mp hb)))
    simp [hb, hhigh]

/-- R53: a field disjoint from the one written keeps its value. -/
theorem IsField.of_disjoint_write {ws ws' : Words} {o w v o₂ w₂ v₂ : Nat} (hv : IsField ws o₂ w₂ v₂)
    (h : IsFieldWrite ws ws' o w v) (hdisjoint : o₂ + w₂ ≤ o ∨ o + w ≤ o₂) : IsField ws' o₂ w₂ v₂ :=
  hv.of_field_bits_eq fun a hlo hhi => by rw [h a, if_neg (by omega)]

/-- R54: writing the value a field has leaves the words as they are. -/
theorem IsField.isFieldWrite_self {ws : Words} {o w v : Nat} (h : IsField ws o w v) : IsFieldWrite ws ws o w v := by
  intro a
  split
  case isTrue hin =>
    have hbit : a - o < w := by omega
    rw [h (a - o), Nat.add_sub_cancel' hin.1]
    simp [hbit]
  case isFalse => rfl

/-- R55: a second write of a field gives, over the first, what it gives over the words before the first. -/
theorem IsFieldWrite.over_earlier_write {ws ws₁ ws₂ : Words} {o w v₁ v₂ : Nat} (h₁ : IsFieldWrite ws ws₁ o w v₁)
    (h₂ : IsFieldWrite ws ws₂ o w v₂) : IsFieldWrite ws₁ ws₂ o w v₂ := by
  intro a
  rw [h₂ a, h₁ a]
  split <;> rfl

/-- A write determines the words it leaves. -/
theorem IsFieldWrite.unique {ws ws₁ ws₂ : Words} {o w v : Nat} (h₁ : IsFieldWrite ws ws₁ o w v)
    (h₂ : IsFieldWrite ws ws₂ o w v) : ws₁ = ws₂ :=
  words_ext fun _ hk => h₁.getWord_eq h₂ (fun _ _ => rfl) hk

/-! ### When a command is a read or a write of its field -/

/-- A command answered with OK passed the check of R48 and R58. -/
theorem fieldFits_of_status_ok {i : Instr} {q : Request} (h : (respondTo i q).status = .ok) : FieldFits i := by
  by_contra hfit
  rw [respondTo_of_not_fieldFits hfit, raise_status] at h
  exact err_status_ne_ok _ h

/-- A field that fits in at most sixteen words and is not empty can be encoded. -/
theorem FieldFits.wellFormed {i : Instr} (h : FieldFits i) (hn : 1 ≤ i.wordCount ∧ i.wordCount ≤ 16)
    (hw : 1 ≤ i.width) : i.wellFormed = true := by
  obtain ⟨hwidth, hend⟩ := h
  exact (wellFormed_iff i).mpr ⟨hn, by omega, hw, by omega⟩

/-- A write answered with OK has a value that fits its field. -/
theorem value_lt_of_status_ok {i : Instr} (hr : i.isRead = false) {q : Request}
    (h : (respondTo i q).status = .ok) : q.value < 2 ^ i.width := by
  by_contra hv
  rw [respondTo_of_tooLarge hr (fieldFits_of_status_ok h) (Nat.not_lt.mp hv), raise_status] at h
  exact err_status_ne_ok _ h

/-- A read whose field fits answers the one value that the field has. -/
theorem respondTo_of_isField {i : Instr} (hr : i.isRead = true) (hfit : FieldFits i) {q : Request} {v : Nat}
    (hv : IsField q.win i.offset i.width v) : respondTo i q = q.respondValue v := by
  obtain ⟨v', heq, hv'⟩ := respondTo_of_read hr hfit q
  rw [heq, hv'.unique hv (fun _ _ => rfl) hfit.end_le]

/-- A write whose field and value fit answers the one vector of words that is the write. -/
theorem respondTo_of_isFieldWrite {i : Instr} (hwf : i.wellFormed = true) (hr : i.isRead = false) (hfit : FieldFits i)
    {q : Request} (hv : q.value < 2 ^ i.width) {ws : Words} (h : IsFieldWrite q.win ws i.offset i.width q.value) :
    respondTo i q = respondWords ws := by
  obtain ⟨ws', heq, h'⟩ := respondTo_of_write hwf hr hfit hv
  rw [heq, h'.unique h]

/-! ### RDF and WRF (spec/40_field_accessor.md R48 to R50) -/

/-- R48 and R58: a field that does not fit ends the command in TOO_MANY_BITS. -/
theorem exec_of_not_fieldFits {i : Instr} (h : ¬ FieldFits i) (s : State) :
    exec i s = .next (s.raise .tooManyBits) := by
  rw [exec_eq, respondTo_of_not_fieldFits h]; rfl

/-- Settles O28: in all four commands the check is first, and it is `FieldFits`. -/
theorem fieldThatDoesNotFitIsTooManyBits : Obligations.FieldThatDoesNotFitIsTooManyBits := by
  unfold Obligations.FieldThatDoesNotFitIsTooManyBits
  intro s n o w
  refine ⟨fun h => ⟨exec_of_not_fieldFits ?rdf s, exec_of_not_fieldFits ?wrf s⟩,
    fun h => ⟨exec_of_not_fieldFits ?mrd s, exec_of_not_fieldFits ?mwr s⟩, by omega⟩
  case rdf => rw [fieldFits_rdf]; omega
  case wrf => rw [fieldFits_wrf]; omega
  case mrd => rw [fieldFits_mrd]; omega
  case mwr => rw [fieldFits_mwr]; omega

theorem respondTo_rdf_of_fits {o w : Nat} (h : o + w ≤ 256) (q : Request) :
    respondTo (.rdf o w) q = q.respondValue (readField (q.word 0) o w) :=
  respondTo_of_isField rfl ((fieldFits_rdf o w).mpr h) (isField_readField q (o := o) (by omega) h)

theorem respondTo_wrf_of_fits {o w : Nat} (h : o + w ≤ 256) {q : Request} (hv : q.value < 2 ^ w) :
    respondTo (.wrf o w) q = respondWords (putWord q.win 0 (toWord (writeField (q.word 0) o w q.value))) := by
  rw [respondTo, wrf_eq, if_neg (by omega), if_neg (by omega)]

/-- Settles O11: the response is the field read of word 0, and its bits are that field's. -/
theorem rdfReadsField : Obligations.RdfReadsField := by
  unfold Obligations.RdfReadsField
  refine ⟨fun c o w => ?encoding, fun s o w _ => ⟨fun hfit => ?value, fun hover => ?error⟩⟩
  case encoding => simp [decode_eq_ok_iff, opcode, Instr.wordCount, Instr.offset, Instr.width]
  case value =>
    have hlt : readField (s.request.word 0) o w < 2 ^ 256 :=
      (readField_lt ..).trans_le (Nat.pow_le_pow_right (by omega) (by omega))
    refine ⟨toWord (readField (s.request.word 0) o w), ?_, toWord_toNat hlt, fun b hb => ?_⟩
    · rw [exec_eq, respondTo_rdf_of_fits hfit]; rfl
    · rw [toWord_getLsbD, readField_testBit]
      simp only [hb, decide_true, Bool.true_and]
      rfl
  case error => exact exec_of_not_fieldFits (by rw [fieldFits_rdf]; omega) s

/-- Settles O12: the response is the field write of word 0, and its bits are VIN's inside the field and WIN's
outside. -/
theorem wrfWritesField : Obligations.WrfWritesField := by
  unfold Obligations.WrfWritesField
  refine ⟨fun c o w => ?encoding,
    fun s o w _ => ⟨fun hfit hv => ?word, fun hfit hv => ?tooLarge, fun hover => ?tooMany⟩⟩
  case encoding => simp [decode_eq_ok_iff, opcode, Instr.wordCount, Instr.offset, Instr.width]
  case word =>
    have hx := word_lt s.request 0
    refine ⟨toWord (writeField (s.request.word 0) o w s.request.value), ?_, toWord_toNat (writeField_lt hx hfit hv),
      fun b hb => ?_⟩
    · rw [exec_eq, respondTo_wrf_of_fits hfit (q := s.request) hv]; rfl
    · rw [toWord_getLsbD, writeField_testBit (v := s.request.value) hx hfit hv]
      simp only [hb, decide_true, Bool.true_and]
      rfl
  case tooLarge =>
    rw [exec_eq, respondTo_of_tooLarge (q := s.request) rfl ((fieldFits_wrf o w).mpr hfit) hv]; rfl
  case tooMany => exact exec_of_not_fieldFits (by rw [fieldFits_wrf]; omega) s

/-! ### The laws of RDF and WRF (spec/40_field_accessor.md R51 to R55) -/

/-- VIN as a value, narrowed to a word again. -/
theorem toWord_value (q : Request) : toWord q.value = q.vin := by
  simp [toWord, Request.value]

theorem toWord_toNat_le (v : Nat) : (toWord v).toNat ≤ v := by
  rw [toWord, BitVec.toNat_ofNat]; exact Nat.mod_le ..

theorem wellFormed_wrf_of_fits {o w : Nat} (h : o + w ≤ 256) (hw : 1 ≤ w) : (Instr.wrf o w).wellFormed = true :=
  ((fieldFits_wrf o w).mpr h).wellFormed ⟨le_rfl, Nat.one_le_ofNat⟩ hw

theorem respondTo_of_answerOf {i : Instr} {s : State} {r : Response} (h : answerOf (exec i s) = some r) :
    respondTo i s.request = r := by
  rwa [answerOf_exec, Option.some.injEq] at h

/-- Everything an RDF answered with OK says. -/
theorem rdf_of_status_ok {s : State} {o w : Nat} {r : Response} (h : answerOf (exec (.rdf o w) s) = some r)
    (hok : r.status = .ok) : o + w ≤ 256 ∧ ∃ v, r = s.request.respondValue v ∧ IsField s.request.win o w v := by
  obtain rfl := respondTo_of_answerOf h
  have hfit := fieldFits_of_status_ok hok
  exact ⟨(fieldFits_rdf o w).mp hfit, respondTo_of_read rfl hfit s.request⟩

/-- Everything a WRF answered with OK says. -/
theorem wrf_of_status_ok {s : State} {o w : Nat} {r : Response} (hw : 1 ≤ w)
    (h : answerOf (exec (.wrf o w) s) = some r) (hok : r.status = .ok) :
    o + w ≤ 256 ∧ s.request.value < 2 ^ w
      ∧ ∃ ws, r = respondWords ws ∧ IsFieldWrite s.request.win ws o w s.request.value := by
  obtain rfl := respondTo_of_answerOf h
  have hfit := fieldFits_of_status_ok hok
  have hend := (fieldFits_wrf o w).mp hfit
  have hv := value_lt_of_status_ok rfl hok
  exact ⟨hend, hv, respondTo_of_write (wellFormed_wrf_of_fits hend hw) rfl hfit hv⟩

/-- RDF of a field that fits, in terms of the value the field has. -/
theorem answerOf_rdf {s : State} {o w v : Nat} (hfit : o + w ≤ 256) (hv : IsField s.request.win o w v) :
    answerOf (exec (.rdf o w) s) = some (s.request.respondValue v) := by
  rw [answerOf_exec, respondTo_of_isField rfl ((fieldFits_rdf o w).mpr hfit) hv]

/-- WRF of a field and value that fit, in terms of the words that are the write. -/
theorem answerOf_wrf {s : State} {o w : Nat} {ws : Words} (hfit : o + w ≤ 256) (hw : 1 ≤ w)
    (hv : s.request.value < 2 ^ w) (h : IsFieldWrite s.request.win ws o w s.request.value) :
    answerOf (exec (.wrf o w) s) = some (respondWords ws) := by
  rw [answerOf_exec,
    respondTo_of_isFieldWrite (wellFormed_wrf_of_fits hfit hw) rfl ((fieldFits_wrf o w).mpr hfit) hv h]

/-- Settles O20: the value is a field's, so it is below 2^w, and narrowing it to a word makes it no larger. -/
theorem rdfResultIsBelowItsWidth : Obligations.RdfResultIsBelowItsWidth := by
  unfold Obligations.RdfResultIsBelowItsWidth
  intro s o w r h hok
  obtain ⟨-, v, rfl, hv⟩ := rdf_of_status_ok h hok
  exact ⟨(toWord_toNat_le v).trans_lt hv.lt_two_pow, BitVec.isLt _⟩

/-- Settles O21: the field written is the value written, and a read answers the field's value. -/
theorem rdfAfterWrfGivesTheValue : Obligations.RdfAfterWrfGivesTheValue := by
  unfold Obligations.RdfAfterWrfGivesTheValue
  intro s o w r hw h hok
  obtain ⟨hfit, hv, ws, rfl, hwrite⟩ := wrf_of_status_ok hw h hok
  have hread := answerOf_rdf (s := s.withWords ws) hfit (hwrite.isField hv)
  rwa [Request.respondValue, toWord_value] at hread

/-- Settles O22: the bits outside the field are as before, so a disjoint field keeps its value. -/
theorem wrfChangesOnlyItsField : Obligations.WrfChangesOnlyItsField := by
  unfold Obligations.WrfChangesOnlyItsField
  intro s o w r hw h hok
  obtain ⟨hfit, -, ws, rfl, hwrite⟩ := wrf_of_status_ok hw h hok
  refine ⟨fun b hb => ?bits, fun o₂ w₂ _ hdisjoint hfit₂ => ?reads⟩
  case bits =>
    have hbit := hwrite (0 * 256 + b)
    rw [if_neg (by omega), offsetBit_mul_add _ _ (by omega), offsetBit_mul_add _ _ (by omega)] at hbit
    exact hbit
  case reads =>
    have hfield := isField_readField s.request (k := 0) (o := o₂) (by omega) hfit₂
    exact ⟨_, answerOf_rdf hfit₂ hfield, answerOf_rdf hfit₂ (hfield.of_disjoint_write hwrite hdisjoint)⟩

/-- Settles O23: the words themselves are the write of the value that the field has. -/
theorem writingBackTheValueReadChangesNothing : Obligations.WritingBackTheValueReadChangesNothing := by
  unfold Obligations.WritingBackTheValueReadChangesNothing
  intro s o w r hw h hok
  obtain ⟨hfit, v, rfl, hv⟩ := rdf_of_status_ok h hok
  have hlt : v < 2 ^ w := hv.lt_two_pow
  have hvalue : (s.withVin (toWord v)).request.value = v :=
    toWord_toNat (hlt.trans_le (Nat.pow_le_pow_right (by omega) (by omega)))
  rw [respondValue_vout]
  exact answerOf_wrf hfit hw (by rwa [hvalue]) (by rw [hvalue]; exact hv.isFieldWrite_self)

/-- Settles O24: over the first write's words, each write is what it was over the words before it. -/
theorem lastWriteWins : Obligations.LastWriteWins := by
  unfold Obligations.LastWriteWins
  intro s o w v2 r1 r2 hw h1 hok1 h2 hok2
  obtain ⟨hfit, hv1, ws1, rfl, hwrite1⟩ := wrf_of_status_ok hw h1 hok1
  obtain ⟨-, hv2, ws2, rfl, hwrite2⟩ := wrf_of_status_ok hw h2 hok2
  exact ⟨answerOf_wrf hfit hw hv2 (hwrite1.over_earlier_write hwrite2),
    answerOf_wrf hfit hw hv1 (hwrite1.over_earlier_write hwrite1)⟩

end Sys2Proof.Machine
end

section
/-! PROOFS of the family 41_multiword. First a read and a write of the bit-offset space on the joined words, and on the
one or two words of the split (spec/41_multiword.md R56, R57); then what each obligation reads off them. -/

namespace Sys2Proof.Machine

/-! ### A field of the joined words -/

/-- The closed form of spec/41_multiword.md R59: a field is its bits of the joined words. -/
theorem IsField.eq_readField_joined {ws : Words} {n o w v : Nat} (h : IsField ws o w v) (hend : o + w ≤ n * 256) :
    v = readField (joined ws n) o w := by
  apply Nat.eq_of_testBit_eq
  intro b
  rw [h b, readField_testBit, joined_testBit]
  by_cases hb : b < w
  · have hin : o + b < n * 256 := by omega
    simp [hin]
  · simp [hb]

/-- A write replaces the field's bits of the joined words and no others. -/
theorem IsFieldWrite.testBit_joined {ws ws' : Words} {n o w v : Nat} (h : IsFieldWrite ws ws' o w v)
    (hend : o + w ≤ n * 256) (a : Nat) :
    (joined ws' n).testBit a = if o ≤ a ∧ a < o + w then v.testBit (a - o) else (joined ws n).testBit a := by
  rw [joined_testBit, joined_testBit, h a]
  by_cases hin : o ≤ a ∧ a < o + w
  · have ha : a < n * 256 := by omega
    simp [hin, ha]
  · simp only [if_neg hin]

/-- The closed form of spec/41_multiword.md R60. -/
theorem IsFieldWrite.joined_eq {ws ws' : Words} {n o w v : Nat} (h : IsFieldWrite ws ws' o w v)
    (hend : o + w ≤ n * 256) (hv : v < 2 ^ w) :
    joined ws' n = ((joined ws n &&& ((2 ^ (n * 256) - 1) - (mask w <<< o))) ||| (v <<< o)) := by
  have hones : mask w <<< o < 2 ^ (n * 256) :=
    (Nat.shiftLeft_lt (by simp [mask] : mask w < 2 ^ w)).trans_le (Nat.pow_le_pow_right (by omega) (by omega))
  apply Nat.eq_of_testBit_eq
  intro a
  rw [h.testBit_joined hend, Nat.testBit_or, Nat.testBit_and, Nat.sub_sub, Nat.add_comm 1,
    Nat.testBit_two_pow_sub_succ hones, Nat.testBit_shiftLeft, Nat.testBit_shiftLeft, mask_testBit,
    joined_testBit]
  by_cases hlo : o ≤ a
  · by_cases hhi : a < o + w
    · have hbit : a - o < w := by omega
      simp [hlo, hhi, hbit]
    · have hbit : ¬ a - o < w := by omega
      have hzero : v.testBit (a - o) = false :=
        Nat.testBit_lt_two_pow (hv.trans_le (Nat.pow_le_pow_right (by omega) (Nat.not_lt.mp hbit)))
      simp [hhi, hbit, hzero, Bool.and_comm]
  · simp [hlo, Bool.and_comm]

/-! ### The one or two words of a write (spec/41_multiword.md R57, R60) -/

/-- A word that the field does not touch is as before. -/
theorem IsFieldWrite.getWord_outside {ws ws' : Words} {o w v k : Nat} (h : IsFieldWrite ws ws' o w v)
    (hk : (k + 1) * 256 ≤ o ∨ o + w ≤ k * 256) : getWord ws' k = getWord ws k :=
  getWord_eq_of_offsetBit_eq fun a _ _ => by rw [h a, if_neg (by omega)]

/-- A write that fits in word k writes its field there, and no other word. -/
theorem words_of_fitting_write {q : Request} {ws : Words} {o w : Nat}
    (h : IsFieldWrite q.win ws o w q.value) (hk : o / 256 < 16) (hfit : o % 256 + w ≤ 256) (hv : q.value < 2 ^ w) :
    getWord ws (o / 256) = toWord (writeField (q.word (o / 256)) (o % 256) w q.value)
    ∧ ∀ j, j ≠ o / 256 → getWord ws j = getWord q.win j := by
  obtain rfl := h.unique (isFieldWrite_putWord q (o := o) rfl hk (by omega) hfit hv)
  exact ⟨getWord_putWord_same _ hk _, fun j hj => getWord_putWord_other _ hj _⟩

/-- A straddling write writes the value's low bits at the top of word k and the others at the bottom of word k+1, and
no other word. -/
theorem words_of_straddling_write {q : Request} {ws : Words} {o w : Nat}
    (h : IsFieldWrite q.win ws o w q.value) (hk : o / 256 + 1 < 16) (hw : w ≤ 256) (hs : 256 < o % 256 + w)
    (hv : q.value < 2 ^ w) :
    getWord ws (o / 256)
      = toWord (writeField (q.word (o / 256)) (o % 256) (256 - o % 256) (q.value &&& mask (256 - o % 256)))
    ∧ getWord ws (o / 256 + 1)
      = toWord (writeField (q.word (o / 256 + 1)) 0 (w - (256 - o % 256)) (q.value >>> (256 - o % 256)))
    ∧ ∀ j, j ≠ o / 256 → j ≠ o / 256 + 1 → getWord ws j = getWord q.win j := by
  obtain rfl := h.unique (isFieldWrite_writeStraddling q hk hw hs hv)
  refine ⟨?low, getWord_putWord_same _ hk _, fun j hj hj' => ?rest⟩
  case low =>
    exact (getWord_putWord_other _ (Nat.ne_add_one _) _).trans (getWord_putWord_same _ (Nat.lt_of_succ_lt hk) _)
  case rest => exact (getWord_putWord_other _ hj' _).trans (getWord_putWord_other _ hj _)

/-- MWR of a field and value that fit. -/
theorem respondTo_mwr_of_fits {n o w : Nat} (hn : 1 ≤ n ∧ n ≤ 16) (hw1 : 1 ≤ w) (hw : w ≤ 256)
    (hend : o + w ≤ n * 256) {q : Request} (hv : q.value < 2 ^ w) :
    ∃ ws, respondTo (.mwr n o w) q = respondWords ws ∧ IsFieldWrite q.win ws o w q.value :=
  have hfit := (fieldFits_mwr n o w).mpr ⟨hw, hend⟩
  respondTo_of_write (hfit.wellFormed hn hw1) rfl hfit hv

/-! ### MRD and MWR (spec/41_multiword.md R59, R60) -/

/-- Settles O13: the response is the one value that the field has, by the split and by the joined words alike. -/
theorem mrdReadsField : Obligations.MrdReadsField := by
  unfold Obligations.MrdReadsField
  refine ⟨fun c n o w => ?encoding, fun s n o w _ _ _ => ⟨fun hw hend => ?value, fun hover => ?error⟩⟩
  case encoding =>
    simp [decode_eq_ok_iff, opcode, Instr.wordCount, Instr.offset, Instr.width, and_left_comm]
  case value =>
    obtain ⟨v, heq, hv⟩ := respondTo_of_read rfl ((fieldFits_mrd n o w).mpr ⟨hw, hend⟩) s.request
    have hunique : ∀ {v'}, IsField s.request.win o w v' → v = v' := fun h' => hv.unique h' (fun _ _ => rfl) hend
    have hnat : (toWord v).toNat = v :=
      toWord_toNat (hv.lt_two_pow.trans_le (Nat.pow_le_pow_right (by omega) hw))
    refine ⟨toWord v, ?_, fun hfit => ?_, fun hs => ?_, ?_⟩
    · rw [exec_eq, heq]; rfl
    · rw [hnat, hunique (isField_readField s.request (k := o / 256) (o := o) (by omega) hfit)]; rfl
    · rw [hnat, hunique (readStraddling_testBit s.request hw hs)]; rfl
    · rw [hnat, hv.eq_readField_joined hend]; rfl
  case error => exact exec_of_not_fieldFits (by rw [fieldFits_mrd]; omega) s

/-- Settles O14: the response's words are the one write of the field, by the split and by the joined words alike. -/
theorem mwrWritesField : Obligations.MwrWritesField := by
  unfold Obligations.MwrWritesField
  refine ⟨fun c n o w => ?encoding, fun s n o w hn hn16 hw1 =>
    ⟨fun hw hend hv => ?words, fun hw hend hv => ?tooLarge, fun hover => ?tooMany⟩⟩
  case encoding =>
    simp [decode_eq_ok_iff, opcode, Instr.wordCount, Instr.offset, Instr.width, and_left_comm]
  case words =>
    replace hv : s.request.value < 2 ^ w := hv
    obtain ⟨ws, heq, hwrite⟩ := respondTo_mwr_of_fits ⟨hn, hn16⟩ hw1 hw hend (q := s.request) hv
    refine ⟨ws, ?_, fun hfit => ?fits, fun hs => ?straddles, hwrite.joined_eq hend hv⟩
    · rw [exec_eq, heq]; rfl
    case fits =>
      obtain ⟨hword, hrest⟩ := words_of_fitting_write hwrite (by omega) hfit hv
      exact ⟨by rw [hword, toWord_toNat (writeField_lt (word_lt ..) hfit hv)]; rfl, hrest⟩
    case straddles =>
      obtain ⟨hlow, hhigh, hrest⟩ := words_of_straddling_write hwrite (by omega) hw hs hv
      refine ⟨?_, ?_, hrest⟩
      · rw [hlow, toWord_toNat (writeField_lt (word_lt ..) (by omega) (lowPart_lt ..))]; rfl
      · rw [hhigh, toWord_toNat (writeField_lt (word_lt ..) (by omega) (highPart_lt hv (by omega)))]; rfl
  case tooLarge =>
    rw [exec_eq, respondTo_of_tooLarge (q := s.request) rfl ((fieldFits_mwr n o w).mpr ⟨hw, hend⟩) hv]; rfl
  case tooMany => exact exec_of_not_fieldFits (by rw [fieldFits_mwr]; omega) s

/-! ### The laws of MRD and MWR (spec/41_multiword.md R61 to R63) -/

/-- Settles O25: the field ends within CAP, and a command's answer is told by the words below N. -/
theorem fieldLiesInTwoWordsThatExist : Obligations.FieldLiesInTwoWordsThatExist := by
  unfold Obligations.FieldLiesInTwoWordsThatExist
  refine ⟨fun n o w hw1 hw hend => ?exist, fun i s r ws hwf h hws => ?belowN⟩
  case exist =>
    rw [straddles_iff]
    simp only [wordIndex, Config.W]
    omega
  case belowN =>
    obtain rfl := respondTo_of_answerOf h
    obtain ⟨hstatus, hvout, -⟩ := respondTo_agrees_below_wordCount hwf s.request hws
    exact ⟨⟨_, answerOf_exec i (s.withWords ws), hstatus, hvout⟩,
      fun k => getWord_respondTo_wout_of_wordCount_le hwf s.request⟩

/-- `s` with a copy of word `k` as WIN[0] and with `v` as VIN: the operands of one of the WRFs that MWR is made of. -/
def State.onWord (s : State) (k v : Nat) : State :=
  (s.withWords (putWord s.ports.reqWin 0 (getWord s.ports.reqWin k))).withVin (toWord v)

theorem onWord_word_zero (s : State) (k v : Nat) : (s.onWord k v).request.word 0 = s.request.word k :=
  congrArg BitVec.toNat (getWord_putWord_same s.ports.reqWin (by decide) _)

theorem onWord_value (s : State) (k : Nat) {v : Nat} (hv : v < 2 ^ 256) : (s.onWord k v).request.value = v :=
  toWord_toNat hv

/-- With VIN as it is, only the word is copied. -/
theorem onWord_own_value (s : State) (k : Nat) :
    s.onWord k s.request.value = s.withWords (putWord s.ports.reqWin 0 (getWord s.ports.reqWin k)) := by
  rw [State.onWord, toWord_value]; rfl

/-- A WRF on a copy of word `k`, of a field and value that fit, succeeds and writes the field of that word. -/
theorem wrf_onWord (s : State) (k : Nat) {l m v : Nat} (hfit : l + m ≤ 256) (hv : v < 2 ^ m) :
    ∃ one : Response, answerOf (exec (.wrf l m) (s.onWord k v)) = some one ∧ one.status = .ok
      ∧ getWord one.wout 0 = toWord (writeField (s.request.word k) l m v) := by
  have hvalue := onWord_value s k (hv.trans_le (Nat.pow_le_pow_right (by omega) (by omega)))
  refine ⟨_, answerOf_exec .., ?_⟩
  rw [respondTo_wrf_of_fits hfit (by rwa [hvalue]), onWord_word_zero, hvalue]
  exact ⟨rfl, getWord_putWord_same _ (by decide) _⟩

/-- Settles O26: each part of the value fits its part of the field, so each WRF succeeds and leaves MWR's word. -/
theorem mwrIsMadeOfWrfs : Obligations.MwrIsMadeOfWrfs := by
  unfold Obligations.MwrIsMadeOfWrfs
  intro s n o w hn hn16 hw1
  refine ⟨fun hw hend hv => ?passes, fun hfails => ?fails⟩
  case passes =>
    replace hv : s.request.value < 2 ^ w := hv
    obtain ⟨ws, heq, hwrite⟩ := respondTo_mwr_of_fits ⟨hn, hn16⟩ hw1 hw hend (q := s.request) hv
    have hmwr : answerOf (exec (.mwr n o w) s) = some (respondWords ws) := by rw [answerOf_exec, heq]
    refine ⟨fun hfit => ?fits, fun hs => ?straddles⟩
    case fits =>
      obtain ⟨hword, hrest⟩ := words_of_fitting_write hwrite (by omega) hfit hv
      obtain ⟨one, hone, hok, hone0⟩ := wrf_onWord s (o / 256) hfit hv
      rw [onWord_own_value] at hone
      exact ⟨one, _, hone, hmwr, hok, rfl, hword.trans hone0.symm, hrest⟩
    case straddles =>
      obtain ⟨hlow, hhigh, hrest⟩ := words_of_straddling_write hwrite (by omega) hw hs hv
      obtain ⟨lo, hlo, hlook, hlo0⟩ := wrf_onWord s (o / 256) (l := o % 256) (m := 256 - o % 256)
        (v := s.request.value &&& mask (256 - o % 256)) (by omega) (lowPart_lt ..)
      obtain ⟨hi, hhi, hhiok, hhi0⟩ := wrf_onWord s (o / 256 + 1) (l := 0) (m := w - (256 - o % 256))
        (v := s.request.value >>> (256 - o % 256)) (by omega) (highPart_lt hv (by omega))
      exact ⟨lo, hi, _, hlo, hhi, hmwr, hlook, hhiok, rfl, hlow.trans hlo0.symm, hhigh.trans hhi0.symm, hrest⟩
  case fails =>
    refine ⟨_, answerOf_exec _ s, ?_⟩
    by_cases hfit : FieldFits (.mwr n o w)
    · obtain ⟨hw, hend⟩ := (fieldFits_mwr n o w).mp hfit
      have hv : 2 ^ w ≤ s.request.value := hfails.resolve_left (by omega) |>.resolve_left (by omega)
      rw [respondTo_of_tooLarge rfl hfit hv]
      exact ⟨err_status_ne_ok .valueTooLarge, rfl⟩
    · rw [respondTo_of_not_fieldFits hfit]
      exact ⟨err_status_ne_ok .tooManyBits, rfl⟩

/-- Two commands that both read, or both write, the same field of equally many words answer alike, whichever opcodes
they have. -/
theorem respondTo_eq_of_same_field {i j : Instr} (hread : i.isRead = j.isRead) (hcount : i.wordCount = j.wordCount)
    (hoffset : i.offset = j.offset) (hwidth : i.width = j.width) (hn : 1 ≤ i.wordCount ∧ i.wordCount ≤ 16)
    (hw : 1 ≤ i.width) (q : Request) : respondTo i q = respondTo j q := by
  have hfits : FieldFits i ↔ FieldFits j := by rw [fieldFits_iff, fieldFits_iff, hcount, hoffset, hwidth]
  by_cases hfit : FieldFits i
  · have hfit' := hfits.mp hfit
    cases hr : i.isRead with
    | true =>
      obtain ⟨v, heq, hv⟩ := respondTo_of_read hr hfit q
      rw [hoffset, hwidth] at hv
      rw [heq, respondTo_of_isField (hread ▸ hr) hfit' hv]
    | false =>
      have hr' : j.isRead = false := hread ▸ hr
      by_cases hv : 2 ^ i.width ≤ q.value
      · rw [respondTo_of_tooLarge hr hfit hv, respondTo_of_tooLarge hr' hfit' (hwidth ▸ hv)]
      · obtain ⟨ws, heq, hwrite⟩ := respondTo_of_write (hfit.wellFormed hn hw) hr hfit (Nat.not_le.mp hv)
        rw [hoffset, hwidth] at hwrite
        have hwf' := hfit'.wellFormed (hcount ▸ hn) (hwidth ▸ hw)
        rw [heq, respondTo_of_isFieldWrite hwf' hr' hfit' (hwidth ▸ Nat.not_le.mp hv) hwrite]
  · rw [respondTo_of_not_fieldFits hfit, respondTo_of_not_fieldFits (mt hfits.mpr hfit)]

/-- Everything an MWR answered with OK says. -/
theorem mwr_of_status_ok {s : State} {n o w : Nat} {r : Response} (hn : 1 ≤ n ∧ n ≤ 16) (hw1 : 1 ≤ w)
    (h : answerOf (exec (.mwr n o w) s) = some r) (hok : r.status = .ok) :
    w ≤ 256 ∧ o + w ≤ n * 256 ∧ s.request.value < 2 ^ w
      ∧ ∃ ws, r = respondWords ws ∧ IsFieldWrite s.request.win ws o w s.request.value := by
  obtain rfl := respondTo_of_answerOf h
  obtain ⟨hw, hend⟩ := (fieldFits_mwr n o w).mp (fieldFits_of_status_ok hok)
  have hv : s.request.value < 2 ^ w := value_lt_of_status_ok rfl hok
  exact ⟨hw, hend, hv, respondTo_mwr_of_fits hn hw1 hw hend hv⟩

/-- Settles O27: with N = 1 the commands have the same field, and the laws of a write hold of a straddling one too. -/
theorem multiWordReductionAndRoundTrip : Obligations.MultiWordReductionAndRoundTrip := by
  unfold Obligations.MultiWordReductionAndRoundTrip
  refine ⟨fun s o w hw1 => ?reduction, fun s n o w r hn hn16 hw1 h hok => ?afterWrite⟩
  case reduction =>
    have hone : 1 ≤ 1 ∧ 1 ≤ 16 := by decide
    simp only [answerOf_exec, respondTo_eq_of_same_field (i := .mrd 1 o w) (j := .rdf o w) rfl rfl rfl rfl hone hw1,
      respondTo_eq_of_same_field (i := .mwr 1 o w) (j := .wrf o w) rfl rfl rfl rfl hone hw1, and_self]
  case afterWrite =>
    obtain ⟨hw, hend, hv, ws, rfl, hwrite⟩ := mwr_of_status_ok ⟨hn, hn16⟩ hw1 h hok
    refine ⟨?roundTrip, fun a ha => ?bits, fun j hj hj' => hwrite.getWord_outside (by omega)⟩
    case roundTrip =>
      have hread : IsField (s.withWords ws).request.win o w s.request.value := hwrite.isField hv
      rw [respondWords_wout, answerOf_exec, respondTo_of_isField rfl ((fieldFits_mrd n o w).mpr ⟨hw, hend⟩) hread,
        Request.respondValue, toWord_value]
      rfl
    case bits => rw [respondWords_wout, hwrite.testBit_joined hend, if_neg (by omega), request_win]

end Sys2Proof.Machine
end

section
/-! PROOFS of the family 60_exceptions: which check of spec/60_exceptions.md R69 decides the response to a command word,
and that a failed one leaves the error response and nothing else (R64, R70). -/

namespace Sys2Proof.Machine

/-! ### The checks by the fields of the command word (spec/60_exceptions.md R67, R68) -/

/-- The command of a legal word: the checks of R67 and R68 on the command's operands are those on the word's fields. -/
theorem exists_command_of_legalWord {c : Command} (h : LegalWord c) :
    ∃ i, decode c = .ok i ∧ i.width = widthOf c ∧ (i.isRead = false ↔ opOf c = 2 ∨ opOf c = 4)
      ∧ (FieldFits i ↔ ¬ FieldDoesNotFit c) := by
  obtain ⟨hrdf, hwrf, hmrd, hmwr⟩ := decode_of_legalWord h
  obtain ⟨-, hop | hop | hop | hop, -⟩ := h
  · exact ⟨_, hrdf hop, rfl, by simp [Instr.isRead, hop], by simp [fieldFits_rdf, FieldDoesNotFit, hop]⟩
  · exact ⟨_, hwrf hop, rfl, by simp [Instr.isRead, hop], by simp [fieldFits_wrf, FieldDoesNotFit, hop]⟩
  · exact ⟨_, hmrd hop, rfl, by simp [Instr.isRead, hop], by simp [fieldFits_mrd, FieldDoesNotFit, hop]⟩
  · exact ⟨_, hmwr hop, rfl, by simp [Instr.isRead, hop], by simp [fieldFits_mwr, FieldDoesNotFit, hop]⟩

/-- A well-formed command that passes both checks is answered with OK. -/
theorem respondTo_status_of_passes {i : Instr} (hwf : i.wellFormed = true) (hfit : FieldFits i) {q : Request}
    (h : i.isRead = false → q.value < 2 ^ i.width) : (respondTo i q).status = .ok := by
  cases hr : i.isRead with
  | true =>
    obtain ⟨v, heq, -⟩ := respondTo_of_read hr hfit q
    rw [heq, respondValue_status]
  | false =>
    obtain ⟨ws, heq, -⟩ := respondTo_of_write hwf hr hfit (h hr)
    rw [heq, respondWords_status]

/-! ### The priority (spec/60_exceptions.md R69); its first check, R66, is `response_of_not_legalWord` -/

/-- R67: a legal word whose field does not fit is TOO_MANY_BITS, whatever VIN is. -/
theorem response_of_fieldDoesNotFit {q : Request} (hlegal : LegalWord q.cmd) (hover : FieldDoesNotFit q.cmd) :
    q.response = q.raise .tooManyBits := by
  obtain ⟨i, hi, -, -, hfits⟩ := exists_command_of_legalWord hlegal
  rw [response_of_decode_ok hi, respondTo_of_not_fieldFits fun hfit => hfits.mp hfit hover]

/-- R68: a write that passes the check of R67 is VALUE_TOO_LARGE if its value does not fit its field. -/
theorem response_of_tooLarge {q : Request} (hlegal : LegalWord q.cmd) (hfit : ¬ FieldDoesNotFit q.cmd)
    (hop : opOf q.cmd = 2 ∨ opOf q.cmd = 4) (hv : 2 ^ widthOf q.cmd ≤ q.value) :
    q.response = q.raise .valueTooLarge := by
  obtain ⟨i, hi, hwidth, hwrite, hfits⟩ := exists_command_of_legalWord hlegal
  rw [response_of_decode_ok hi, respondTo_of_tooLarge (hwrite.mpr hop) (hfits.mpr hfit) (hwidth ▸ hv)]

/-- R69: OK when no check fails; a read has no check of R68. -/
theorem response_status_of_passes {q : Request} (hlegal : LegalWord q.cmd) (hfit : ¬ FieldDoesNotFit q.cmd)
    (hpass : opOf q.cmd = 1 ∨ opOf q.cmd = 3 ∨ q.value < 2 ^ widthOf q.cmd) : q.response.status = .ok := by
  obtain ⟨i, hi, hwidth, hwrite, hfits⟩ := exists_command_of_legalWord hlegal
  rw [response_of_decode_ok hi]
  refine respondTo_status_of_passes (wellFormed_of_decode hi) (hfits.mpr hfit) fun hr => ?_
  have hop := hwrite.mp hr
  rw [hwidth]
  omega

/-- Settles O29: at an accepting edge the slot takes the response to the request, and each clause is one of R66 to
R69. -/
theorem statusFollowsPriority : Obligations.StatusFollowsPriority := by
  unfold Obligations.StatusFollowsPriority
  intro s hacc hreads
  refine ⟨_, step_of_accepting hacc hreads, fun hillegal => ?illegal, fun hlegal hover => ?tooMany,
    fun hlegal hfit hop hv => ?tooLarge, response_status_of_passes (q := s.request)⟩
  case illegal => rw [response_of_not_legalWord (q := s.request) hillegal]; rfl
  case tooMany => rw [response_of_fieldDoesNotFit (q := s.request) hlegal hover]; rfl
  case tooLarge => rw [response_of_tooLarge (q := s.request) hlegal hfit hop hv]; rfl

/-! ### The error response (spec/60_exceptions.md R64, R70) -/

/-- R70: a response that is not OK is the error response of one failed check, so no word is written with it. -/
theorem exists_response_eq_raise {q : Request} (h : q.response.status ≠ .ok) : ∃ e, q.response = q.raise e := by
  by_cases hlegal : LegalWord q.cmd
  · by_cases hover : FieldDoesNotFit q.cmd
    · exact ⟨_, response_of_fieldDoesNotFit hlegal hover⟩
    · have hfails : ¬ (opOf q.cmd = 1 ∨ opOf q.cmd = 3 ∨ q.value < 2 ^ widthOf q.cmd) :=
        mt (response_status_of_passes hlegal hover) h
      have ⟨_, hop, _⟩ := hlegal
      exact ⟨_, response_of_tooLarge hlegal hover (by omega) (by omega)⟩
  · exact ⟨_, response_of_not_legalWord hlegal⟩

/-- Settles O30: a response that is not OK is `raise E`'s, and answering with it is `raise E`. -/
theorem errorChangesNothing : Obligations.ErrorChangesNothing := by
  unfold Obligations.ErrorChangesNothing
  intro s hacc hreads
  refine ⟨_, step_of_accepting hacc hreads, fun h => ?_⟩
  obtain ⟨e, he⟩ := exists_response_eq_raise h
  rw [he]
  exact ⟨raise_vout .., raise_wout .., e, raise_status .., rfl⟩

end Sys2Proof.Machine
end

section
/-! PROOFS of the family 70_reset_and_hazards. First what one edge does to the slot and to the host's records, by the
event; then runs of edges without reset. -/

namespace Sys2Proof.Machine

variable {latency n : Nat} {s t : State} {f : InFlight}

/-! ### One edge, field by field -/

/-- What the state is like when the coming edge's event is `e` (spec/70_reset_and_hazards.md R75 to R78). -/
def State.Meets (latency : Nat) (s : State) : EdgeEvent → Prop
  | .reset => s.ports.rstN = false
  | .accepted q => s.Accepting ∧ q = s.request
  | .handedOver r => s.ports.rspReady = true ∧ ∃ f, s.slot = some f ∧ latency ≤ f.waited ∧ f.rsp = r
  | .waiting => ∃ f, s.slot = some f ∧ f.waited < latency
  | .presented => s.ports.rspReady = false ∧ ∃ f, s.slot = some f ∧ latency ≤ f.waited
  | .idle => s.slot = none

/-- `event_cases`, to be read off the event. -/
theorem meets_event (latency : Nat) (s : State) : s.Meets latency (s.event latency) := by
  obtain ⟨he, hrst⟩ | ⟨he, hacc⟩ | ⟨he, -, hs, -⟩ | ⟨f, hf, -, hevent⟩ := event_cases latency s
  · rw [he]; exact hrst
  · rw [he]; exact ⟨hacc, rfl⟩
  · rw [he]; exact hs
  · obtain ⟨he, hwait⟩ | ⟨he, hdue, hready⟩ | ⟨he, hdue, hready⟩ := hevent <;> rw [he]
    · exact ⟨f, hf, hwait⟩
    · exact ⟨hready, f, hf, hdue⟩
    · exact ⟨hready, f, hf, hdue, rfl⟩

theorem slot_of_edge (h : edge latency s = .next t) : t.slot = (afterEvent (s.event latency) s).slot := by
  obtain ⟨-, rfl⟩ := edge_next h
  exact hostEdge_slot ..

/-- Each of the host's records after an edge is what the host learned from the edge's event. -/
theorem records_of_edge (h : edge latency s = .next t) :
    t.host.issued = (s.host.learns (s.event latency)).issued
      ∧ t.host.taken = (s.host.learns (s.event latency)).taken
      ∧ t.host.store = (s.host.learns (s.event latency)).store := by
  obtain ⟨-, rfl⟩ := edge_next h
  simp only [hostEdge_issued, hostEdge_taken, hostEdge_store, afterEvent_host, and_self]

theorem exists_next_of_reads_nothing (h : s.host.reads = .nothing) : ∃ t, edge latency s = .next t :=
  ⟨_, edge_of_readFault_none (readFault_of_reads_nothing h)⟩

/-! ### The slot -/

theorem reqReady_iff : s.reqReady = true ↔ s.ports.rstN = true ∧ s.slot = none := by
  simp [State.reqReady]

/-- R77: nothing is presented while what the slot holds, if anything, has waited less than LATENCY edges. -/
theorem rspValid_eq_false (h : ∀ f, s.slot = some f → f.waited < latency) : s.rspValid latency = false := by
  rw [State.rspValid, Option.isSome_eq_false_iff, Option.isNone_iff_eq_none, Option.eq_none_iff_forall_ne_some]
  intro r hr
  obtain ⟨-, f, hf, hdue, -⟩ := presents_eq_some.mp hr
  exact absurd (h f hf) (Nat.not_lt.mpr hdue)

theorem rspValid_of_slot_none (h : s.slot = none) : s.rspValid latency = false :=
  rspValid_eq_false fun f hf => by simp [h] at hf

/-- R76, R78: a transaction is accepted at accepting edges only, and it is the request on the ports. -/
theorem event_eq_accepted_iff {q : Request} : s.event latency = .accepted q ↔ s.Accepting ∧ q = s.request := by
  refine ⟨fun h => ?_, fun ⟨hacc, hq⟩ => hq ▸ event_of_accepting hacc⟩
  have hmeets := meets_event latency s
  rwa [h] at hmeets

/-- R77: what an edge with `rst_n = 1` does to a full slot, whatever the request ports are: it counts while the response
is not due, and then keeps the response until `rsp_ready = 1`. -/
theorem edge_of_full_slot (hf : s.slot = some f) (hrst : s.ports.rstN = true) (h : edge latency s = .next t) :
    (f.waited < latency ∧ t.slot = some { f with waited := f.waited + 1 })
    ∨ (latency ≤ f.waited ∧ s.ports.rspReady = false ∧ t.slot = some f)
    ∨ (latency ≤ f.waited ∧ s.ports.rspReady = true ∧ s.event latency = .handedOver f.rsp ∧ t.slot = none) := by
  have hslot := slot_of_edge h
  have hmeets := meets_event latency s
  cases he : s.event latency <;> rw [he] at hslot hmeets
  case reset => simp [State.Meets, hrst] at hmeets
  case accepted => simp [State.Meets, State.Accepting, hf] at hmeets
  case idle => simp [State.Meets, hf] at hmeets
  case waiting =>
    obtain ⟨g, hg, hwait⟩ := hmeets
    cases hf.symm.trans hg
    exact .inl ⟨hwait, by rw [hslot, afterEvent, wait_slot, hf]; rfl⟩
  case presented =>
    obtain ⟨hready, g, hg, hdue⟩ := hmeets
    cases hf.symm.trans hg
    exact .inr (.inl ⟨hdue, hready, hslot.trans hf⟩)
  case handedOver =>
    obtain ⟨hready, g, hg, hdue, rfl⟩ := hmeets
    cases hf.symm.trans hg
    exact .inr (.inr ⟨hdue, hready, rfl, hslot⟩)

/-- An edge that accepts nothing leaves an empty slot empty. -/
theorem slot_stays_empty (hs : s.slot = none) (hno : ∀ q, s.event latency ≠ .accepted q)
    (h : edge latency s = .next t) : t.slot = none := by
  rw [slot_of_edge h]
  cases he : s.event latency with
  | reset => rfl
  | accepted q => exact absurd he (hno q)
  | handedOver => rfl
  | waiting => rw [afterEvent, wait_slot, hs]; rfl
  | presented => exact hs
  | idle => exact hs

/-! ### Reset and acceptance (spec/70_reset_and_hazards.md R75, R76) -/

theorem event_of_reset (h : s.ports.rstN = false) : s.event latency = .reset := by
  simp [State.event, h]

/-- Settles O34: the event is a reset, which empties the slot and clears the request in flight. -/
theorem resetEmptiesTheSlot : Obligations.ResetEmptiesTheSlot := by
  unfold Obligations.ResetEmptiesTheSlot
  intro latency s hrst
  refine ⟨by simp [State.reqReady, hrst], by simp [State.rspValid, State.presents, hrst],
    exists_next_of_reads_nothing, fun t h => ?after⟩
  case after =>
    have hslot := slot_of_edge h
    have hrecords := records_of_edge h
    rw [event_of_reset hrst] at hslot hrecords
    obtain ⟨hissued, htaken, hstore⟩ := hrecords
    exact ⟨hslot, hissued, htaken, hstore, rspValid_of_slot_none hslot, fun hrst' => reqReady_iff.mpr ⟨hrst', hslot⟩⟩

/-- Settles O35: the response is computed at the accepting edge, and no edge with `rst_n = 1` computes another while the
slot is full. -/
theorem acceptanceSamplesTheOperands : Obligations.AcceptanceSamplesTheOperands := by
  unfold Obligations.AcceptanceSamplesTheOperands
  refine fun latency s => ⟨?condition, fun hacc hreads => ?sampled, fun f p t hf hrst h => ?later⟩
  case condition =>
    simp only [event_eq_accepted_iff, exists_and_left, exists_eq, and_true, reqReady_iff, State.Accepting]
    tauto
  case sampled =>
    obtain ⟨t, h⟩ := exists_next_of_reads_nothing (latency := latency) hreads
    exact ⟨t, h, slot_of_accepting_edge hacc h⟩
  case later =>
    obtain ⟨-, hslot⟩ | ⟨-, -, hslot⟩ | ⟨-, -, he, hslot⟩ := edge_of_full_slot (s := { s with ports := p }) hf hrst h
    · exact .inl ⟨_, hslot, rfl⟩
    · exact .inl ⟨_, hslot, rfl⟩
    · exact .inr ⟨hslot, he⟩

/-! ### Runs without reset (spec/70_reset_and_hazards.md R77) -/

theorem runAwake_succ :
    runAwake latency (n + 1) s = some t ↔
      s.ports.rstN = true ∧ ∃ u, edge latency s = .next u ∧ runAwake latency n u = some t := by
  rw [runAwake]
  cases s.ports.rstN with
  | false => simp
  | true => cases edge latency s <;> simp

/-- R77: over a run in which its response does not fall due before the end, a full slot counts the edges. -/
theorem runAwake_counts (hf : s.slot = some f) (hdue : f.waited + n ≤ latency)
    (hrun : runAwake latency n s = some t) : t.slot = some { f with waited := f.waited + n } := by
  induction n generalizing s f with
  | zero => cases hrun; exact hf
  | succ n ih =>
    obtain ⟨hrst, u, hedge, hrest⟩ := runAwake_succ.mp hrun
    obtain ⟨-, hslot⟩ | ⟨hge, -⟩ | ⟨hge, -⟩ := edge_of_full_slot hf hrst hedge
    · rw [ih hslot (by dsimp only; omega) hrest]
      simp only [Nat.add_assoc, Nat.add_comm 1]
    · omega
    · omega

/-- The slot `n + 1` edges after an acceptance, up to the first edge at which its response is presented. -/
theorem slot_after_acceptance {q : Request} (hevent : s.event latency = .accepted q) (hn : n + 1 ≤ latency)
    (hrun : runAwake latency (n + 1) s = some t) : t.slot = some { rsp := q.response, waited := n + 1 } := by
  obtain ⟨hacc, rfl⟩ := event_eq_accepted_iff.mp hevent
  obtain ⟨-, u, hedge, hrest⟩ := runAwake_succ.mp hrun
  rw [runAwake_counts (slot_of_accepting_edge hacc hedge) (by dsimp only; omega) hrest, Nat.add_comm 1]

/-- Settles O36: the count in the slot reaches LATENCY exactly when as many edges have passed, and stops there. -/
theorem responsePresentedFromLatencyOn : Obligations.ResponsePresentedFromLatencyOn := by
  unfold Obligations.ResponsePresentedFromLatencyOn
  intro latency hlatency
  refine ⟨fun n s t q hacc hrun => ⟨fun hn => ?early, fun hn hrst => ?due⟩, fun s t r hr h => ?presented,
    fun s t hs hno h => ?idle⟩
  case early =>
    have hslot := slot_after_acceptance hacc (by omega) hrun
    exact ⟨rspValid_eq_false fun f hf => by cases hslot.symm.trans hf; exact hn, by rw [hslot]; rfl⟩
  case due => exact presents_eq_some.mpr ⟨hrst, _, slot_after_acceptance hacc (by omega) hrun, hn.ge, rfl⟩
  case presented =>
    obtain ⟨hrst, f, hf, hdue, rfl⟩ := presents_eq_some.mp hr
    obtain ⟨hlt, -⟩ | ⟨-, hready, hslot⟩ | ⟨-, hready, he, hslot⟩ := edge_of_full_slot hf hrst h
    · omega
    · exact ⟨fun _ hrst' => presents_eq_some.mpr ⟨hrst', f, hslot, hdue, rfl⟩, fun h1 => by simp [hready] at h1⟩
    · exact ⟨fun h0 => by simp [hready] at h0, fun _ => ⟨he, hslot, rspValid_of_slot_none hslot⟩⟩
  case idle =>
    have hslot := slot_stays_empty hs hno h
    exact ⟨hslot, rspValid_of_slot_none hslot⟩

/-! ### The order of responses (spec/70_reset_and_hazards.md R78) -/

/-- The requests accepted at one edge, as a list of at most one. -/
def EdgeEvent.acceptedRequests : EdgeEvent → List Request
  | .accepted q => [q]
  | _ => []

theorem acceptedIn_succ {u : State} (h : edge latency s = .next u) :
    acceptedIn latency (n + 1) s = (s.event latency).acceptedRequests ++ acceptedIn latency n u := by
  rw [acceptedIn, h]
  cases s.event latency <;> rfl

theorem State.Inv.issued_of_slot_none (hinv : s.Inv latency) (hs : s.slot = none) : s.host.issued = none := by
  simpa [hs, eq_comm] using hinv.slot_answers_issued

theorem State.Inv.issued_of_slot (hinv : s.Inv latency) (hf : s.slot = some f) :
    ∃ q, s.host.issued = some q ∧ f.rsp = q.response := by
  simpa [hf, eq_comm, and_comm] using hinv.slot_answers_issued

/-- The slot and the request in flight are filled together at an acceptance, and emptied together at a handover or a
reset. -/
theorem edge_keeps_slot_answers_issued (hinv : s.Inv latency) (h : edge latency s = .next t) :
    t.slot.map (·.rsp) = t.host.issued.map Request.response := by
  have hslot := slot_of_edge h
  obtain ⟨hissued, -, -⟩ := records_of_edge h
  rw [hslot, hissued]
  have hlink := hinv.slot_answers_issued
  have hmeets := meets_event latency s
  cases he : s.event latency <;> rw [he] at hmeets
  case reset => rfl
  case accepted q => obtain ⟨-, rfl⟩ := hmeets; rfl
  case handedOver => rfl
  case waiting => simpa [afterEvent, HostAgent.learns, Function.comp_def] using hlink
  case presented => exact hlink
  case idle => exact hlink

/-- An edge without reset hands over the transaction in flight, or leaves it in flight, or accepts one when there is
none: the transactions taken and in flight grow by the accepted one. -/
theorem transactions_of_edge (hinv : s.Inv latency) (hrst : s.ports.rstN = true) (h : edge latency s = .next t) :
    t.host.taken ++ t.inFlight
      = s.host.taken ++ s.inFlight ++ (s.event latency).acceptedRequests.map Request.transaction := by
  obtain ⟨hissued, htaken, -⟩ := records_of_edge h
  rw [State.inFlight, State.inFlight, hissued, htaken]
  have hmeets := meets_event latency s
  cases he : s.event latency <;> rw [he] at hmeets
  case reset => simp [State.Meets, hrst] at hmeets
  case accepted q =>
    obtain ⟨⟨-, -, hs⟩, -⟩ := hmeets
    simp [HostAgent.learns, hinv.issued_of_slot_none hs, EdgeEvent.acceptedRequests]
  case handedOver r =>
    obtain ⟨-, f, hf, -, rfl⟩ := hmeets
    obtain ⟨q, hq, hrsp⟩ := hinv.issued_of_slot hf
    simp [HostAgent.learns, hq, hrsp, EdgeEvent.acceptedRequests, Request.transaction]
  all_goals simp [HostAgent.learns, EdgeEvent.acceptedRequests]

/-- R77: an accepted response has waited one edge, and a response is counted only while it has waited less than
LATENCY. -/
theorem edge_keeps_waited_bounds (hlatency : 1 ≤ latency) (hinv : s.Inv latency) (h : edge latency s = .next t) :
    ∀ f, t.slot = some f → 1 ≤ f.waited ∧ f.waited ≤ latency := by
  have hbounds := hinv.waited_bounds
  have hmeets := meets_event latency s
  intro g hg
  rw [slot_of_edge h] at hg
  cases he : s.event latency <;> rw [he] at hg hmeets
  case reset => cases hg
  case accepted => cases hg; exact ⟨le_rfl, hlatency⟩
  case handedOver => cases hg
  case waiting =>
    obtain ⟨f, hf, hwait⟩ := hmeets
    rw [afterEvent, wait_slot, hf] at hg
    cases hg
    exact ⟨Nat.le_add_left .., hwait⟩
  case presented => exact hbounds g hg
  case idle => exact hbounds g hg

/-- What the host takes at a handover is the response to the request it has in flight. -/
theorem edge_keeps_taken_correct (hinv : s.Inv latency) (h : edge latency s = .next t) :
    ∀ x ∈ t.host.taken, x.rsp = x.req.response := by
  have htaken := hinv.taken_correct
  obtain ⟨-, htaken', -⟩ := records_of_edge h
  rw [htaken']
  have hmeets := meets_event latency s
  cases he : s.event latency <;> rw [he] at hmeets
  case handedOver r =>
    obtain ⟨-, f, hf, -, rfl⟩ := hmeets
    obtain ⟨q, hq, hrsp⟩ := hinv.issued_of_slot hf
    simpa [HostAgent.learns, hq, hrsp, or_imp, forall_and] using htaken
  all_goals exact htaken

/-- Every edge keeps the invariant, at any LATENCY of at least 1. -/
theorem edge_keeps_inv (hlatency : 1 ≤ latency) (hinv : s.Inv latency) (h : edge latency s = .next t) :
    t.Inv latency :=
  ⟨edge_keeps_slot_answers_issued hinv h, edge_keeps_waited_bounds hlatency hinv h, edge_keeps_taken_correct hinv h⟩

/-- `transactions_of_edge` over a run. -/
theorem transactions_of_runAwake (hlatency : 1 ≤ latency) (hinv : s.Inv latency)
    (hrun : runAwake latency n s = some t) :
    t.host.taken ++ t.inFlight
      = s.host.taken ++ s.inFlight ++ (acceptedIn latency n s).map Request.transaction := by
  induction n generalizing s with
  | zero => cases hrun; simp [acceptedIn]
  | succ n ih =>
    obtain ⟨hrst, u, hedge, hrest⟩ := runAwake_succ.mp hrun
    rw [ih (edge_keeps_inv hlatency hinv hedge) hrest, transactions_of_edge hinv hrst hedge, acceptedIn_succ hedge,
      List.map_append, List.append_assoc]

/-- Settles O37: by induction over the run, with the invariant at every edge. -/
theorem oneInFlightAnsweredInOrder : Obligations.OneInFlightAnsweredInOrder := by
  unfold Obligations.OneInFlightAnsweredInOrder
  exact ⟨fun _ => reqReady_iff, fun _ _ _ _ hlatency hinv hrun => transactions_of_runAwake hlatency hinv hrun⟩

end Sys2Proof.Machine
end

section
/-! PROOFS of the family other: the obligations that are read off the lemmas of the families above, the round trip of a
layout, and the write-back harness at the ports. -/

namespace Sys2Proof.Machine

variable {latency n : Nat} {s t : State}

/-! ### The invariant -/

/-- Settles O44: each part of the invariant is kept by the event of the edge. -/
theorem everyEdgeKeepsTheInvariant : Obligations.EveryEdgeKeepsTheInvariant := by
  unfold Obligations.EveryEdgeKeepsTheInvariant
  exact fun _ _ _ hlatency hinv h => edge_keeps_inv hlatency hinv h

/-- Settles O43: right after reset the slot is empty, nothing is in flight, and nothing was taken. -/
theorem invariantHoldsAtReset : Obligations.InvariantHoldsAtReset := by
  unfold Obligations.InvariantHoldsAtReset
  intro latency
  exact ⟨rfl, fun _ hf => (nomatch hf), fun _ hx => (nomatch hx)⟩

/-! ### Command words and lines of assembler (spec/30_encoding.md) -/

/-- No two words mean the same command: the command fixes every field of its word. -/
theorem command_eq_of_decode {c c' : Command} {i : Instr} (h : decode c = .ok i) (h' : decode c' = .ok i) : c = c' := by
  obtain ⟨hrsv, hn, hop, ho, hw, -⟩ := decode_eq_ok_iff.mp h
  obtain ⟨hrsv', hn', hop', ho', hw', -⟩ := decode_eq_ok_iff.mp h'
  apply BitVec.eq_of_toNat_eq
  rw [command_toNat c, command_toNat c']
  omega

/-- Settles O2: the command's encoding decodes to the command too, so it is the word. -/
theorem decodeThenEncode : Obligations.DecodeThenEncode := by
  unfold Obligations.DecodeThenEncode
  intro c i h
  have hwf := wellFormed_of_decode h
  exact ⟨hwf, command_eq_of_decode (decode_encode hwf) h⟩

/-- Settles O6: evaluation of the decoder on fixed words. -/
theorem specWordsDecode : Obligations.SpecWordsDecode := by
  unfold Obligations.SpecWordsDecode
  decide

theorem assemble_of_encodable {l : Line} (hwf : l.instr.wellFormed = true) (hv : l.value < 2 ^ 256) :
    l.assemble = .ok { cmd := encode l.instr, vin := toWord l.value } := by
  rw [Line.assemble, if_pos hwf, if_pos hv]

theorem assemble_refuses {l : Line} (h : l.instr.wellFormed = false ∨ 2 ^ 256 ≤ l.value) :
    ∃ e, l.assemble = .error e := by
  rw [Line.assemble]
  by_cases hwf : l.instr.wellFormed = true
  · have hv : ¬ l.value < 2 ^ 256 := Nat.not_lt.mpr (h.resolve_left (by simp [hwf]))
    exact ⟨_, by rw [if_pos hwf, if_neg hv]⟩
  · exact ⟨_, if_neg hwf⟩

/-- Settles O47: the word of a line is its command's encoding, and VIN holds its value. -/
theorem linesAssembleToTheirCommands : Obligations.LinesAssembleToTheirCommands := by
  unfold Obligations.LinesAssembleToTheirCommands
  exact fun l => ⟨fun hwf hv => ⟨_, assemble_of_encodable hwf hv, decode_encode hwf, toWord_toNat hv⟩, assemble_refuses⟩

/-! ### A step runs the decoded command (spec/70_reset_and_hazards.md R76) -/

/-- Settles O10: exec fills the slot with the response to the operands. -/
theorem commandsCompleteAndFillOnlyTheSlot : Obligations.CommandsCompleteAndFillOnlyTheSlot := by
  unfold Obligations.CommandsCompleteAndFillOnlyTheSlot
  exact fun i s => ⟨respondTo i s.request, exec_eq i s⟩

/-- A step at an accepting edge is exec of the decoded command, and the host's part. -/
theorem step_of_decode {i : Instr} (hacc : s.Accepting) (hreads : s.host.reads = .nothing)
    (hi : decode s.ports.reqCmd = .ok i) :
    ∃ t, exec i s = .next t ∧ step s = .next (t.hostEdge (.accepted s.request)) := by
  have hstep := step_of_accepting hacc hreads
  rw [response_of_decode_ok (q := s.request) hi] at hstep
  exact ⟨_, exec_eq i s, hstep⟩

/-- Settles O7: the response that enters the slot is the decoded command's. -/
theorem stepRunsDecodedCommand : Obligations.StepRunsDecodedCommand := by
  unfold Obligations.StepRunsDecodedCommand
  exact fun _ _ => step_of_decode

theorem withFetchWord_eq_present (s : State) (c : Command) : s.withFetchWord 32 c.toNat = s.present c := by
  rw [State.withFetchWord, tableCommand, Nat.mod_eq_of_lt c.isLt, BitVec.ofNat_toNat, BitVec.setWidth_eq]

/-- Settles O8: the presented state is accepting with the word on `req_cmd`, and the step runs it. -/
theorem presentedWordRunsNext : Obligations.PresentedWordRunsNext := by
  unfold Obligations.PresentedWordRunsNext
  intro s c i hi
  rw [withFetchWord_eq_present]
  have hacc : (s.present c).Accepting := ⟨present_rstN s c, present_reqValid s c, present_slot s c⟩
  exact ⟨hacc, present_reqCmd s c, step_of_decode hacc (present_reads s c) hi⟩

/-! ### Reads and writes in the bit-offset space (spec/20_memory.md R25, R26) -/

/-- Settles O15: a successful read answers the value of its field. -/
theorem readsGiveTheFieldBits : Obligations.ReadsGiveTheFieldBits := by
  unfold Obligations.ReadsGiveTheFieldBits
  intro i s r hr _ h hok b hb
  obtain rfl := respondTo_of_answerOf h
  obtain ⟨v, heq, hv⟩ := respondTo_of_read hr (fieldFits_of_status_ok hok) s.request
  rw [heq, respondValue_vout, toWord_getLsbD, hv b, decide_eq_true hb, Bool.true_and]
  rfl

/-- Settles O16: a successful write is the write of VIN to its field. -/
theorem writesReplaceExactlyTheField : Obligations.WritesReplaceExactlyTheField := by
  unfold Obligations.WritesReplaceExactlyTheField
  intro i s r hr hwf h hok a
  obtain rfl := respondTo_of_answerOf h
  obtain ⟨ws, heq, hwrite⟩ :=
    respondTo_of_write hwf hr (fieldFits_of_status_ok hok) (value_lt_of_status_ok hr hok)
  rw [heq, respondWords_wout]
  exact hwrite a

/-! ### What the host reads (spec/70_reset_and_hazards.md R79, R83) -/

theorem rspValid_eq_false_iff : s.rspValid latency = false ↔ s.presents latency = none := by
  rw [State.rspValid, Option.isSome_eq_false_iff, Option.isNone_iff_eq_none]

/-- The response ports have no value while no response is presented. -/
theorem outputs_of_presents_none (h : s.presents latency = none) :
    s.rspStatus latency = none ∧ s.rspVout latency = none ∧ ∀ k, s.rspWout latency k = none := by
  simp [State.rspStatus, State.rspVout, State.rspWout, h]

/-- The response ports carry the presented response. -/
theorem outputs_of_presents {r : Response} (h : s.presents latency = some r) :
    s.rspStatus latency = some r.status.code ∧ s.rspVout latency = some r.vout
      ∧ ∀ (k : Nat) (_ : k < 16), s.rspWout latency k = some r.wout[k] := by
  simp +contextual [State.rspStatus, State.rspVout, State.rspWout, h, getWord]

theorem edge_of_readFault {e : Fault} (h : s.readFault latency = some e) : edge latency s = .fault e := by
  rw [edge_eq, h]

/-- R79: any read of the response ports faults while no response is presented. -/
theorem readFault_of_presents_none (h : s.presents latency = none) (hreads : s.host.reads ≠ .nothing) :
    s.readFault latency = some .outputHasNoValue := by
  rw [State.readFault, h]
  cases hr : s.host.reads with
  | nothing => exact absurd hr hreads
  | outputs => rfl
  | fieldValue => rfl

/-- Settles O38: the ports are functions of the response presented, and without one every read faults. -/
theorem outputsHaveNoValueOutsideAResponse : Obligations.OutputsHaveNoValueOutsideAResponse := by
  unfold Obligations.OutputsHaveNoValueOutsideAResponse
  refine fun latency s => ⟨fun hvalid => ?absent, fun r hr => ⟨by rw [State.rspValid, hr]; rfl, outputs_of_presents hr⟩⟩
  case absent =>
    have hnone := rspValid_eq_false_iff.mp hvalid
    obtain ⟨hstatus, hvout, hwout⟩ := outputs_of_presents_none hnone
    exact ⟨hstatus, hvout, hwout, fun hreads => edge_of_readFault (readFault_of_presents_none hnone hreads)⟩

/-- Settles O42: the slot is empty, so nothing is presented. -/
theorem stateAfterReset : Obligations.StateAfterReset := by
  unfold Obligations.StateAfterReset
  refine ⟨rfl, rfl, rfl, fun latency => ?_⟩
  have hvalid : State.reset.rspValid latency = false := rspValid_of_slot_none rfl
  exact ⟨hvalid, outputs_of_presents_none (rspValid_eq_false_iff.mp hvalid)⟩

/-- A command gives a field value exactly when its word is a legal RDF or MRD. -/
theorem awaitsValue_iff {h : HostAgent} {q : Request} (hq : h.issued = some q) :
    h.awaitsValue = true ↔ LegalWord q.cmd ∧ (opOf q.cmd = 1 ∨ opOf q.cmd = 3) := by
  rw [HostAgent.awaitsValue, hq]
  by_cases hlegal : LegalWord q.cmd
  · obtain ⟨i, hi, -, hwrite, -⟩ := exists_command_of_legalWord hlegal
    have ⟨_, hop, _⟩ := hlegal
    simp only [hi, hlegal, true_and]
    rw [← Bool.not_eq_false, hwrite]
    omega
  · obtain ⟨e, he⟩ := (exists_decode_error_iff q.cmd).mpr hlegal
    simp [he, hlegal]

/-- R83: a presented response is read as a field value without a fault only if it is OK and answers a read. -/
theorem readFault_of_fieldValue {r : Response} (hr : s.presents latency = some r)
    (hreads : s.host.reads = .fieldValue) :
    s.readFault latency = if r.status = .ok ∧ s.host.awaitsValue then none else some .voutIsNoFieldValue := by
  rw [State.readFault, hreads, hr]

/-- Settles O39: the fault's condition, with the command in flight told by its word. -/
theorem voutIsReadAsAValueOnlyAfterARead : Obligations.VoutIsReadAsAValueOnlyAfterARead := by
  unfold Obligations.VoutIsReadAsAValueOnlyAfterARead
  intro latency s r q hr hq hreads
  have hfault := readFault_of_fieldValue hr hreads
  rw [← awaitsValue_iff hq]
  exact ⟨fun hvalue => ⟨_, edge_of_readFault_none (hfault.trans (if_pos hvalue))⟩,
    fun hno => edge_of_readFault (hfault.trans (if_neg hno))⟩

/-- Settles O40: an edge stops by a fault of the host's reading only. -/
theorem onlyHostReadsStopTheMachine : Obligations.OnlyHostReadsStopTheMachine := by
  unfold Obligations.OnlyHostReadsStopTheMachine
  refine fun latency s => ⟨fun r h => ?_, exists_next_of_reads_nothing⟩
  cases hf : s.readFault latency with
  | none => rw [edge_of_readFault_none hf] at h; cases h
  | some e => rw [edge_of_readFault hf] at h; cases h

/-! ### The host's records -/

/-- Settles O41: what the host learns from an event changes its store at a write-back only. -/
theorem storeChangesOnlyByWriteBack : Obligations.StoreChangesOnlyByWriteBack := by
  unfold Obligations.StoreChangesOnlyByWriteBack
  intro latency s t h
  obtain ⟨-, -, hstore⟩ := records_of_edge h
  rw [hstore]
  refine ⟨fun r he hback => ?handedOver, fun hno => ?other⟩
  case handedOver => rw [he]; exact if_pos hback
  case other =>
    cases he : s.event latency with
    | handedOver r => exact if_neg (by simpa [he] using hno)
    | reset | accepted | waiting | presented | idle => rfl

/-- With an empty slot nothing is handed over, so the host takes nothing and writes nothing back. -/
theorem records_kept_of_slot_none (hs : s.slot = none) (h : edge latency s = .next t) :
    t.host.taken = s.host.taken ∧ t.host.store = s.host.store := by
  obtain ⟨-, htaken, hstore⟩ := records_of_edge h
  rw [htaken, hstore]
  have hmeets := meets_event latency s
  cases he : s.event latency with
  | handedOver r =>
    rw [he] at hmeets
    obtain ⟨-, f, hf, -⟩ := hmeets
    cases hs.symm.trans hf
  | reset | accepted | waiting | presented | idle => exact ⟨rfl, rfl⟩

/-- With no valid request and an empty slot, a host that reads nothing has an edge at which nothing happens. -/
theorem edge_without_request (hs : s.slot = none) (hreads : s.host.reads = .nothing)
    (hvalid : s.ports.reqValid = false) :
    ∃ t, edge latency s = .next t ∧ t.slot = none ∧ t.host.taken = s.host.taken ∧ t.host.store = s.host.store := by
  obtain ⟨t, h⟩ := exists_next_of_reads_nothing (latency := latency) hreads
  have hno : ∀ q, s.event latency ≠ .accepted q := fun q he => by
    obtain ⟨⟨-, hv, -⟩, -⟩ := event_eq_accepted_iff.mp he
    cases hvalid.symm.trans hv
  exact ⟨t, h, slot_stays_empty hs hno h, records_kept_of_slot_none hs h⟩

/-- Settles O46: nothing is accepted, and with an empty slot nothing is handed over. -/
theorem nothingHappensWithoutAValidRequest : Obligations.NothingHappensWithoutAValidRequest := by
  unfold Obligations.NothingHappensWithoutAValidRequest
  exact fun _ s p hs hreads hvalid => edge_without_request (s := { s with ports := p }) hs hreads hvalid

/-! ### What the host does next -/

/-- The host keeps its levels. -/
theorem hostEdge_of_held {e : EdgeEvent} (h : s.host.hold.released e = false) :
    s.hostEdge e = { s with host := s.host.learns e } := by
  simp [State.hostEdge, h]

/-- The host's acts are used up. -/
theorem hostEdge_of_script_nil {e : EdgeEvent} (h : s.host.hold.released e = true) (hs : s.host.script = []) :
    s.hostEdge e = State.rest { s with host := s.host.learns e } := by
  simp [State.hostEdge, h, hs]

/-- The host goes on to its next act, with the records it has after the event. -/
theorem hostEdge_of_script_cons {e : EdgeEvent} {a : HostAct} {as : List HostAct}
    (h : s.host.hold.released e = true) (hs : s.host.script = a :: as) :
    s.hostEdge e = State.play { s with host := { s.host.learns e with script := as } } a := by
  simp [State.hostEdge, h, hs]

/-- The levels of `req_cmd` and `req_valid` after the host's part of an edge: those of the next act if the host goes on
to one, a host at rest presenting nothing. -/
theorem hostEdge_command (s : State) (e : EdgeEvent) :
    (s.hostEdge e).ports.reqCmd
        = (if s.host.hold.released e then (s.host.script.head?.map (·.cmd)).getD s.ports.reqCmd
            else s.ports.reqCmd)
      ∧ (s.hostEdge e).ports.reqValid
        = (if s.host.hold.released e then (s.host.script.head?.map (·.reqValid)).getD false
            else s.ports.reqValid) := by
  cases hrel : s.host.hold.released e with
  | false => rw [hostEdge_of_held hrel]; exact ⟨rfl, rfl⟩
  | true =>
    cases hscript : s.host.script with
    | nil => rw [hostEdge_of_script_nil hrel hscript]; exact ⟨rfl, rfl⟩
    | cons a as => rw [hostEdge_of_script_cons hrel hscript]; exact ⟨rfl, rfl⟩

/-- When the host goes on to its next act, by the levels of the handshake and the progress of the response in flight. -/
def Hold.IsOver (latency : Nat) (rstN reqValid rspReady : Bool) (waited : Option Nat) : Hold → Prop
  | .oneEdge => True
  | .untilAccepted => rstN = true ∧ reqValid = true ∧ waited = none
  | .untilHandedOver => rstN = true ∧ rspReady = true ∧ ∃ w, waited = some w ∧ latency ≤ w

/-- No word has a part in whether the host goes on to its next act. -/
theorem released_event_iff {h : Hold} :
    h.released (s.event latency) = true
      ↔ h.IsOver latency s.ports.rstN s.ports.reqValid s.ports.rspReady (s.slot.map (·.waited)) := by
  obtain ⟨he, hrst⟩ | ⟨he, hrst, hvalid, hs⟩ | ⟨he, hrst, hs, hvalid⟩ | ⟨f, hf, hrst, hevent⟩ := event_cases latency s
  · cases h <;> simp [he, hrst, Hold.released, Hold.IsOver]
  · cases h <;> simp [he, hrst, hvalid, hs, Hold.released, Hold.IsOver]
  · cases h <;> simp [he, hrst, hvalid, hs, Hold.released, Hold.IsOver]
  · obtain ⟨he, hwait⟩ | ⟨he, hdue, hready⟩ | ⟨he, hdue, hready⟩ := hevent
    · cases h <;> simp [he, hrst, hf, hwait, Hold.released, Hold.IsOver]
    · cases h <;> simp [he, hrst, hf, hready, Hold.released, Hold.IsOver]
    · cases h <;> simp [he, hrst, hf, hdue, hready, Hold.released, Hold.IsOver]

/-- Settles O33: the next command is told by the host's script and by the handshake, and neither depends on a word. -/
theorem wordsNeverBecomeCommands : Obligations.WordsNeverBecomeCommands := by
  unfold Obligations.WordsNeverBecomeCommands
  intro latency s1 s2 t1 t2 hrst hvalid hcmd hready hhold hscript hwaited h1 h2
  have hreleased : s1.host.hold.released (s1.event latency) = s2.host.hold.released (s2.event latency) := by
    rw [Bool.eq_iff_iff, released_event_iff, released_event_iff, hrst, hvalid, hready, hhold, hwaited]
  obtain ⟨-, rfl⟩ := edge_next h1
  obtain ⟨-, rfl⟩ := edge_next h2
  simp only [hostEdge_command, afterEvent_host, afterEvent_ports, hreleased, hscript, hcmd, hvalid, and_self]

/-! ### The round trip of a layout (spec/95_test_vectors.md S-RT) -/

/-- A field that a layout may have: a width of at least 1, and a value that fits it. -/
def Field.Fits (f : Field) : Prop := 1 ≤ f.width ∧ f.value < 2 ^ f.width

/-- The words hold the fields of a layout, the first at offset `o`. -/
def HoldsLayout (ws : Words) : Nat → List Field → Prop
  | _, [] => True
  | o, f :: fs => IsField ws o f.width f.value ∧ HoldsLayout ws (o + f.width) fs

theorem response_of_encode {i : Instr} (hwf : i.wellFormed = true) (v : Word) (ws : Words) :
    (Issue.request { cmd := encode i, vin := v } ws).response = respondTo i { cmd := encode i, vin := v, win := ws } :=
  response_of_decode_ok (q := { cmd := encode i, vin := v, win := ws }) (decode_encode hwf)

/-- WRF of a field of a layout that ends within word 0. -/
theorem response_of_layout_write {f : Field} {o : Nat} (hf : f.Fits) (hend : o + f.width ≤ 256) (ws : Words) :
    ∃ ws', (Issue.request { cmd := encode (.wrf o f.width), vin := toWord f.value } ws).response = respondWords ws'
      ∧ IsFieldWrite ws ws' o f.width f.value := by
  obtain ⟨hw, hv⟩ := hf
  have hvalue : (toWord f.value).toNat = f.value :=
    toWord_toNat (hv.trans_le (Nat.pow_le_pow_right (by omega) (by omega)))
  have hwf := wellFormed_wrf_of_fits hend hw
  obtain ⟨ws', heq, hwrite⟩ := respondTo_of_write
    (q := { cmd := encode (.wrf o f.width), vin := toWord f.value, win := ws }) hwf rfl
    ((fieldFits_wrf o f.width).mpr hend) (hvalue.trans_lt hv)
  rw [Request.value, hvalue] at hwrite
  exact ⟨ws', (response_of_encode hwf _ ws).trans heq, hwrite⟩

/-- RDF of a field of a layout from words that hold it. -/
theorem response_of_layout_read {f : Field} {o : Nat} (hw : 1 ≤ f.width) (hend : o + f.width ≤ 256) {ws : Words}
    (hfield : IsField ws o f.width f.value) :
    (Issue.request { cmd := encode (.rdf o f.width), vin := 0#256 } ws).response
      = { status := .ok, vout := toWord f.value, wout := ws } := by
  have hfit := (fieldFits_rdf o f.width).mpr hend
  rw [response_of_encode (hfit.wellFormed ⟨le_rfl, Nat.one_le_ofNat⟩ hw),
    respondTo_of_isField (q := { cmd := encode (.rdf o f.width), vin := 0#256, win := ws }) rfl hfit hfield]
  rfl

/-- The writes of a layout all succeed, keep what lies below it, and leave words that hold it. -/
theorem harness_layoutWrites {fs : List Field} (hfs : ∀ f ∈ fs, f.Fits) {o : Nat} (hend : o + layoutBits fs ≤ 256)
    (ws : Words) :
    (∀ t ∈ (harness (layoutWrites o fs) ws).1, t.rsp.status = .ok)
    ∧ (∀ a, a < o → offsetBit (harness (layoutWrites o fs) ws).2 a = offsetBit ws a)
    ∧ HoldsLayout (harness (layoutWrites o fs) ws).2 o fs := by
  induction fs generalizing o ws with
  | nil => exact ⟨fun _ ht => (nomatch ht), fun _ _ => rfl, trivial⟩
  | cons f fs ih =>
    obtain ⟨hf, hrest⟩ := List.forall_mem_cons.mp hfs
    rw [layoutBits] at hend
    obtain ⟨ws', heq, hwrite⟩ := response_of_layout_write hf (o := o) (by omega) ws
    obtain ⟨hok, hbelow, hholds⟩ := ih hrest (o := o + f.width) (by omega) ws'
    rw [layoutWrites, harness]
    simp only [heq, respondWords_wout]
    refine ⟨List.forall_mem_cons.mpr ⟨rfl, hok⟩, fun a ha => ?below, ?field, hholds⟩
    case below => rw [hbelow a (by omega), hwrite a, if_neg (by omega)]
    case field => exact (hwrite.isField hf.2).of_field_bits_eq fun a _ ha => hbelow a ha

/-- The reads of a layout answer its values from words that hold it. -/
theorem harness_layoutReads {fs : List Field} (hfs : ∀ f ∈ fs, f.Fits) {o : Nat} (hend : o + layoutBits fs ≤ 256)
    {ws : Words} (hholds : HoldsLayout ws o fs) :
    (harness (layoutReads o fs) ws).1.map (·.rsp)
      = fs.map fun f => { status := .ok, vout := toWord f.value, wout := ws } := by
  induction fs generalizing o with
  | nil => rfl
  | cons f fs ih =>
    obtain ⟨hf, hrest⟩ := List.forall_mem_cons.mp hfs
    obtain ⟨hfield, hholds⟩ := hholds
    rw [layoutBits] at hend
    have hread := response_of_layout_read hf.1 (by omega) hfield
    rw [layoutReads, harness]
    simp only [hread, List.map_cons]
    rw [ih hrest (by omega) hholds]

/-- Settles O48: the writes leave words that hold the layout, and the reads answer from them. -/
theorem layoutRoundTrip : Obligations.LayoutRoundTrip := by
  unfold Obligations.LayoutRoundTrip
  intro fs hfs hbits
  have hend : 0 + layoutBits fs ≤ 256 := by omega
  obtain ⟨hok, -, hholds⟩ := harness_layoutWrites hfs hend zeroWords
  exact ⟨hok, harness_layoutReads hfs hend hholds⟩

/-! ### The write-back harness at the ports (spec/70_reset_and_hazards.md R82) -/

theorem runAwake_add {m : Nat} :
    runAwake latency (m + n) s = some t ↔ ∃ u, runAwake latency m s = some u ∧ runAwake latency n u = some t := by
  induction m generalizing s with
  | zero => simp [runAwake]
  | succ m ih =>
    rw [Nat.add_right_comm]
    simp only [runAwake_succ, ih]
    tauto

/-- The host is about to run the commands `cs` by the harness: the slot is empty, and it presents the first command with
the store's words, if there is one. -/
def State.Begins (s : State) : List Issue → Prop
  | [] => s.slot = none
  | c :: cs => s.Accepting ∧ s.request = c.request s.host.store ∧ s.host.reads = .nothing
      ∧ s.host.hold = .untilAccepted ∧ s.host.script = c.takeAct :: harnessScript cs

/-- The host waits for the response to `q`, which has waited `waited` edges, with `cs` to run after it. -/
structure State.Takes (s : State) (q : Request) (waited : Nat) (cs : List Issue) : Prop where
  slot : s.slot = some { rsp := q.response, waited := waited }
  issued : s.host.issued = some q
  rstN : s.ports.rstN = true
  rspReady : s.ports.rspReady = true
  reads : s.host.reads = .nothing
  writesBack : s.host.writesBack = true
  hold : s.host.hold = .untilHandedOver
  script : s.host.script = harnessScript cs

/-- The host goes on to the harness script. -/
theorem begins_of_hostEdge {e : EdgeEvent} {cs : List Issue} (hrel : s.host.hold.released e = true)
    (hscript : s.host.script = harnessScript cs) (hs : s.slot = none) : (s.hostEdge e).Begins cs := by
  cases cs with
  | nil => exact (hostEdge_slot s e).trans hs
  | cons c cs =>
    rw [hostEdge_of_script_cons hrel hscript]
    exact ⟨⟨rfl, rfl, hs⟩, rfl, rfl, rfl, rfl⟩

/-- The accepting edge of a command of the harness. -/
theorem takes_of_accepting_edge {c : Issue} {cs : List Issue} (h : s.Begins (c :: cs)) :
    ∃ u, edge latency s = .next u ∧ u.Takes (c.request s.host.store) 1 cs
      ∧ u.host.taken = s.host.taken := by
  obtain ⟨hacc, hreq, hreads, hhold, hscript⟩ := h
  refine ⟨_, edge_of_readFault_none (readFault_of_reads_nothing hreads), ?_⟩
  rw [event_of_accepting hacc, hreq, hostEdge_of_script_cons (by rw [afterEvent_host, hhold]; rfl)
    (by rw [afterEvent_host, hscript])]
  exact ⟨⟨by rw [← hreq]; rfl, rfl, rfl, rfl, rfl, rfl, rfl, rfl⟩, rfl⟩

/-- An edge before the response is presented changes the count only. -/
theorem edge_of_takes_waiting {q : Request} {w : Nat} {cs : List Issue} (h : s.Takes q w cs) (hw : w < latency) :
    edge latency s = .next s.wait ∧ s.wait.Takes q (w + 1) cs := by
  have he : s.event latency = .waiting := by simp [State.event, h.rstN, h.slot, hw]
  constructor
  · rw [edge_of_readFault_none (readFault_of_reads_nothing h.reads), he, hostEdge_of_held (by
      rw [afterEvent_host, h.hold]; rfl)]
    rfl
  · exact { h with slot := by rw [wait_slot, h.slot]; rfl }

/-- The handover edge of a command of the harness. -/
theorem begins_of_handover_edge {q : Request} {cs : List Issue} (h : s.Takes q latency cs) :
    ∃ u, edge latency s = .next u ∧ u.Begins cs ∧ u.host.store = q.response.wout
      ∧ u.host.taken = s.host.taken ++ [q.transaction] := by
  have he : s.event latency = .handedOver q.response := by simp [State.event, h.rstN, h.slot, h.rspReady]
  refine ⟨_, edge_of_readFault_none (readFault_of_reads_nothing h.reads), ?_⟩
  rw [he]
  refine ⟨begins_of_hostEdge (by rw [afterEvent_host, h.hold]; rfl) (by rw [afterEvent_host, h.script]) rfl, ?_, ?_⟩
  · rw [hostEdge_store, afterEvent_host]
    exact if_pos h.writesBack
  · rw [hostEdge_taken, afterEvent_host, HostAgent.learns, h.issued]
    rfl

/-- From the acceptance on: the edges up to presentation, and the handover edge. -/
theorem runAwake_of_takes {q : Request} {w : Nat} {cs : List Issue} (h : s.Takes q w cs) (hn : w + n = latency) :
    ∃ u, runAwake latency (n + 1) s = some u ∧ u.Begins cs ∧ u.host.store = q.response.wout
      ∧ u.host.taken = s.host.taken ++ [q.transaction] := by
  induction n generalizing s w with
  | zero =>
    obtain rfl : w = latency := hn
    obtain ⟨u, hedge, hu⟩ := begins_of_handover_edge h
    exact ⟨u, runAwake_succ.mpr ⟨h.rstN, u, hedge, rfl⟩, hu⟩
  | succ n ih =>
    obtain ⟨hedge, hwait⟩ := edge_of_takes_waiting h (latency := latency) (by omega)
    obtain ⟨u, hrun, hu⟩ := ih hwait (by omega)
    exact ⟨u, runAwake_succ.mpr ⟨h.rstN, _, hedge, hrun⟩, hu⟩

/-- One command of the harness takes LATENCY + 1 edges. -/
theorem runAwake_of_begins_cons {c : Issue} {cs : List Issue} (hlatency : 1 ≤ latency) (h : s.Begins (c :: cs)) :
    ∃ u, runAwake latency (latency + 1) s = some u ∧ u.Begins cs
      ∧ u.host.store = (c.request s.host.store).response.wout
      ∧ u.host.taken = s.host.taken ++ [(c.request s.host.store).transaction] := by
  obtain ⟨u, hedge, htakes, htaken⟩ := takes_of_accepting_edge (latency := latency) h
  obtain ⟨v, hrun, hv⟩ := runAwake_of_takes htakes (Nat.add_sub_cancel' hlatency)
  rw [Nat.sub_add_cancel hlatency] at hrun
  rw [htaken] at hv
  obtain ⟨⟨hrst, -⟩, -⟩ := h
  exact ⟨v, runAwake_succ.mpr ⟨hrst, u, hedge, hrun⟩, hv⟩

/-- The harness, command by command. -/
theorem runAwake_of_begins {cs : List Issue} (hlatency : 1 ≤ latency) (h : s.Begins cs) :
    ∃ t, runAwake latency ((latency + 1) * cs.length) s = some t ∧ t.host.store = (harness cs s.host.store).2
      ∧ t.host.taken = s.host.taken ++ (harness cs s.host.store).1 ∧ t.slot = none := by
  induction cs generalizing s with
  | nil => exact ⟨s, rfl, rfl, (List.append_nil _).symm, h⟩
  | cons c cs ih =>
    obtain ⟨u, hfirst, hbegins, hstore, htaken⟩ := runAwake_of_begins_cons hlatency h
    obtain ⟨t, hrest, hstore', htaken', hslot⟩ := ih hbegins
    refine ⟨t, ?run, ?store, ?taken, hslot⟩
    case run =>
      rw [List.length_cons, Nat.mul_succ, Nat.add_comm, runAwake_add]
      exact ⟨u, hfirst, hrest⟩
    case store => rw [hstore', hstore]; rfl
    case taken =>
      rw [htaken', htaken, hstore, List.append_assoc]
      rfl

/-- The idle edge at which the host begins the harness script. -/
theorem begins_of_atStart {cs : List Issue} (h : s.AtStart) (hscript : s.host.script = harnessScript cs) :
    ∃ u, edge latency s = .next u ∧ u.Begins cs ∧ u.host.store = s.host.store ∧ u.host.taken = s.host.taken := by
  obtain ⟨hs, -, hrst, hvalid, hreads, hhold⟩ := h
  have he : s.event latency = .idle := by simp [State.event, hrst, hs, hvalid]
  refine ⟨_, edge_of_readFault_none (readFault_of_reads_nothing hreads), ?_⟩
  rw [he]
  exact ⟨begins_of_hostEdge (by rw [afterEvent_host, hhold]; rfl) hscript hs, hostEdge_store .., hostEdge_taken ..⟩

/-- Settles O45: one edge to begin, and then by induction over the commands. -/
theorem harnessAtThePorts : Obligations.HarnessAtThePorts := by
  unfold Obligations.HarnessAtThePorts
  intro latency cs s hlatency hstart hscript
  obtain ⟨u, hedge, hbegins, hstore, htaken⟩ := begins_of_atStart (latency := latency) hstart hscript
  obtain ⟨t, hrun, ht⟩ := runAwake_of_begins hlatency hbegins
  obtain ⟨-, -, hrst, -⟩ := hstart
  rw [hstore, htaken] at ht
  exact ⟨t, runAwake_succ.mpr ⟨hrst, u, hedge, hrun⟩, ht⟩

end Sys2Proof.Machine
end
